-- ==== Sys2Proof/Word.lean ====
section
/-! DEFINITION. The plain types of the HCB: register words, memory bytes and bit strings. -/

namespace Sys2Proof

/-- A register word, R12: "Register width is 32 bits". -/
abbrev Word := BitVec 32

/-- One byte of the output buffer. -/
abbrev Byte := BitVec 8

/-- A bit string in stream order, first bit first (R14). -/
abbrev Bits := List Bool

end Sys2Proof
end

