-- ==== Sys2Proof/Syntax.lean ====
section
/-! DEFINITION. The HCB's commands, one constructor per row of the opcode table (R103). The operands that a command
takes from the DATA register are not part of its syntax (R102). -/

namespace Sys2Proof

/-- A decoded command word (R103). -/
inductive Instr where
  /-- NOP (R210). -/
  | nop
  /-- PUT_BITS with its bit count N = CMD[13:8] (R131). -/
  | putBits (n : Nat)
  /-- PUT_UE (R135). -/
  | putUe
  /-- PUT_SE (R139). -/
  | putSe
  /-- PUT_START_CODE (R151). -/
  | putStartCode
  /-- PUT_TRAILING (R152). -/
  | putTrailing
  /-- PUT_AUD (R161). -/
  | putAud
  /-- PUT_SPS (R167). -/
  | putSps
  /-- PUT_PPS (R171). -/
  | putPps
  /-- PUT_SLICE_HEADER (R176). -/
  | putSliceHeader
  /-- PUT_FRAME_HEADERS with its first-frame flag F = CMD[16] (R180). -/
  | putFrameHeaders (f : Bool)
  /-- VLE_RESET (R211). -/
  | vleReset
  /-- GEO_COMPUTE (R194). -/
  | geoCompute
  /-- GEO_CLEAR (R195). -/
  | geoClear
deriving DecidableEq, Repr

end Sys2Proof
end

