-- ==== Sys2Proof/WellFormed.lean ====
section
/-! DEFINITION. Which commands a command word can carry. -/

namespace Sys2Proof

/-- N is a six-bit field, "an unsigned count in [0, 63]" (R102); no other row has an operand that could be out of
its field. A count in [33, 63] is well formed: it is "a legal encoding with an illegal operand" (R107). -/
def Instr.wellFormed : Instr → Bool
  | .putBits n => decide (n ≤ 63)
  | .nop | .putUe | .putSe | .putStartCode | .putTrailing | .putAud | .putSps | .putPps | .putSliceHeader
  | .putFrameHeaders _ | .vleReset | .geoCompute | .geoClear => true

end Sys2Proof
end

