-- ==== Sys2Proof/Decode.lean ====
section
/-! DEFINITION. The decoder of R104, total on every 32-bit word and rejecting by name, and the encoder of the same
table (R101, R103). A command is one register word, never bytes in memory (R86), so both work on words. -/

namespace Sys2Proof

/-! ## Fields of the command word (R101) -/

/-- OPC = CMD[7:0]. -/
def opcField (c : Word) : Nat := (c.extractLsb' 0 8).toNat

/-- N = zext_32(CMD[13:8]) (R102). -/
def nField (c : Word) : Nat := (c.extractLsb' 8 6).toNat

/-- F = CMD[16] (R102). -/
def fField (c : Word) : Bool := c.getLsbD 16

/-! ## The opcode map (R103) -/

/-- One row of R103's table. -/
structure OpcodeRow where
  /-- The row's match value. -/
  pattern : Word
  /-- The bits a decoder compares. -/
  mask : Word
  /-- The command with N and F taken from the word. -/
  build : Word → Instr

/-- The rows of R103, in its order. -/
def opcodeRows : List OpcodeRow :=
  [ ⟨0x00000000, 0xFFFFFFFF, fun _ => .nop⟩,
    ⟨0x00000001, 0xFFFFC0FF, fun c => .putBits (nField c)⟩,
    ⟨0x00000002, 0xFFFFFFFF, fun _ => .putUe⟩,
    ⟨0x00000003, 0xFFFFFFFF, fun _ => .putSe⟩,
    ⟨0x00000004, 0xFFFFFFFF, fun _ => .putStartCode⟩,
    ⟨0x00000005, 0xFFFFFFFF, fun _ => .putTrailing⟩,
    ⟨0x00000006, 0xFFFFFFFF, fun _ => .putAud⟩,
    ⟨0x00000007, 0xFFFFFFFF, fun _ => .putSps⟩,
    ⟨0x00000008, 0xFFFFFFFF, fun _ => .putPps⟩,
    ⟨0x00000009, 0xFFFFFFFF, fun _ => .putSliceHeader⟩,
    ⟨0x0000000A, 0xFFFEFFFF, fun c => .putFrameHeaders (fField c)⟩,
    ⟨0x0000000B, 0xFFFFFFFF, fun _ => .vleReset⟩,
    ⟨0x00000010, 0xFFFFFFFF, fun _ => .geoCompute⟩,
    ⟨0x00000011, 0xFFFFFFFF, fun _ => .geoClear⟩ ]

/-- A row matches a word when `(c & mask) = match` (R103). -/
def OpcodeRow.hits (r : OpcodeRow) (c : Word) : Bool := (c &&& r.mask) == r.pattern

/-- R105: the opcodes no row has are 0x0C to 0x0F and 0x12 to 0xFF. -/
def reservedOpcode (opc : Nat) : Bool := (0x0C ≤ opc && opc ≤ 0x0F) || 0x12 ≤ opc

/-- Why a word decodes to ILLEGAL. -/
inductive DecodeError where
  /-- The opcode is reserved (R105). -/
  | reservedOpcode
  /-- The opcode is assigned and a bit outside its row's free fields is set (R106). -/
  | reservedField
deriving DecidableEq, Repr

/-- R104's `Decode`, with ILLEGAL split by its cause. -/
def decode (c : Word) : Except DecodeError Instr :=
  match opcodeRows.find? (·.hits c) with
  | some r => .ok (r.build c)
  | none => .error (if reservedOpcode (opcField c) then .reservedOpcode else .reservedField)

/-- The instruction of a word, where it has one. -/
def decode? (c : Word) : Option Instr := (decode c).toOption

/-- A command word from its three fields; every other bit is 0 (R101). -/
def commandWord (opc n : Nat) (f : Bool) : Word :=
  BitVec.ofNat 15 0 ++ BitVec.ofBool f ++ BitVec.ofNat 2 0 ++ BitVec.ofNat 6 n ++ BitVec.ofNat 8 opc

/-- The command word of an instruction: R103's match value with R101's fields. -/
def encode : Instr → Word
  | .nop => commandWord 0x00 0 false
  | .putBits n => commandWord 0x01 n false
  | .putUe => commandWord 0x02 0 false
  | .putSe => commandWord 0x03 0 false
  | .putStartCode => commandWord 0x04 0 false
  | .putTrailing => commandWord 0x05 0 false
  | .putAud => commandWord 0x06 0 false
  | .putSps => commandWord 0x07 0 false
  | .putPps => commandWord 0x08 0 false
  | .putSliceHeader => commandWord 0x09 0 false
  | .putFrameHeaders f => commandWord 0x0A 0 f
  | .vleReset => commandWord 0x0B 0 false
  | .geoCompute => commandWord 0x10 0 false
  | .geoClear => commandWord 0x11 0 false

/-- The command word whose bits are `w`, numbered as the opcode table numbers them, with every bit from `nbits` up
being 0. -/
def tableWord (nbits w : Nat) : Word := BitVec.ofNat 32 (w % 2 ^ nbits)

/-- What the decoder reads from a word given as the opcode table gives it. -/
def decodeTableWord (nbits w : Nat) : Option Instr := decode? (tableWord nbits w)

end Sys2Proof
end

