-- ==== Sys2Proof/Config.lean ====
section
/-! DEFINITION. The parameters of R11, every one a field of `Config`, which a state carries unchanged, and the free
values. -/

namespace Sys2Proof

/-! ## Parameters that R11 gives one value -/

/-- The parameters whose value the source or a decision fixes (R11, status "source" and "decision"). -/
structure FixedParams where
  /-- `W_MIN` (R191). -/
  wMin : Nat
  /-- `W_MAX` (R191). -/
  wMax : Nat
  /-- `H_MIN` (R191). -/
  hMin : Nat
  /-- `H_MAX` (R191). -/
  hMax : Nat
  /-- `MB_SIZE` (R192). -/
  mbSize : Nat
  /-- `TILE_ALIGN` (R192). -/
  tileAlign : Nat
  /-- `OUTPUT_BUF_SIZE` (R47). -/
  outputBufSize : Nat
  /-- `MBINFO_BUF_SIZE` (R48). -/
  mbinfoBufSize : Nat
  /-- The numerator of `INPUT_FACTOR` (R193). -/
  inputFactorNum : Nat
  /-- The denominator of `INPUT_FACTOR` (R193). -/
  inputFactorDen : Nat
  /-- `PROFILE_IDC` (R165 row 4). -/
  profileIdc : Byte
  /-- `LEVEL_IDC` (R165 row 6). -/
  levelIdc : Byte
  /-- `PRIMARY_PIC_TYPE` (R160). -/
  primaryPicType : Fin 8
  /-- `MAX_NUM_REF_FRAMES` (R165). -/
  maxNumRefFrames : Nat
  /-- `CHROMA_QP_INDEX_OFFSET` (R170). -/
  chromaQpIndexOffset : Int
  /-- `SLICE_TYPE` (R175). -/
  sliceType : Nat
  /-- `SLICE_QP_DELTA` (R175). -/
  sliceQpDelta : Int
  /-- `BITS_MAX_N` (R131, decision D13). -/
  bitsMaxN : Nat
  /-- `REG_WINDOW_SIZE` in bytes (R30, decision D2). -/
  regWindowSize : Nat
deriving DecidableEq, Repr

/-- The values R11 states. -/
def FixedParams.stated : FixedParams where
  wMin := 16
  wMax := 1920
  hMin := 16
  hMax := 1080
  mbSize := 16
  tileAlign := 32
  outputBufSize := 1048576
  mbinfoBufSize := 4096
  inputFactorNum := 3
  inputFactorDen := 2
  profileIdc := 77
  levelIdc := 41
  primaryPicType := 7
  maxNumRefFrames := 1
  chromaQpIndexOffset := 4
  sliceType := 2
  sliceQpDelta := 4
  bitsMaxN := 32
  regWindowSize := 0x100

/-! ## OPEN parameters -/

/-- The legal values of `NAL_REF_IDC` (R163: "Legal values are 1, 2 and 3"); 0 has no term, so a model that sets it
cannot be written (93_implementation_defined.md U14, "refuse"). -/
inductive NalRefIdc where
  | one
  | two
  | three
deriving DecidableEq, Repr

/-- The legal values of `PIC_ORDER_CNT_TYPE` (R165: "may be 0 or 2 in a model"); 1 has no term (U13, "refuse"). -/
inductive PocType where
  | zero
  | two
deriving DecidableEq, Repr

/-- `HALF_DIM_ROUND`, R192. -/
inductive HalfDimRound where
  | floor
  | ceil
deriving DecidableEq, Repr

/-- All the parameters of R11: the fixed ones, and those it marks OPEN. -/
structure Config extends FixedParams where
  /-- `NAL_REF_IDC` of SPS, PPS and slice (R163). -/
  nalRefIdc : NalRefIdc
  /-- `CONSTRAINT_BYTE` of the SPS (R165 row 5). -/
  constraintByte : Byte
  /-- `LOG2_MAX_FRAME_NUM_MINUS4` (R165 row 8, R175 row 7). -/
  log2MaxFrameNumMinus4 : Nat
  /-- `PIC_ORDER_CNT_TYPE` (R165 row 9). -/
  picOrderCntType : PocType
  /-- `LOG2_MAX_POC_LSB_MINUS4` (R165 row 10, R175 row 9). -/
  log2MaxPocLsbMinus4 : Nat
  /-- `DIRECT_8X8_INFERENCE` (R165 row 16). -/
  direct8x8Inference : Bool
  /-- `HALF_DIM_ROUND` (R192). -/
  halfDimRound : HalfDimRound
  /-- `UE_MAX_CODE_BITS` (R134). -/
  ueMaxCodeBits : Nat
  /-- `EPB_IN_LEN` (R35). -/
  epbInLen : Bool
  /-- `ENGINE_TIMEOUT` (R274); `none` is the unbounded wait. -/
  engineTimeout : Option Nat
deriving DecidableEq, Repr

/-- The defaults of R11. -/
def Config.default : Config where
  toFixedParams := FixedParams.stated
  nalRefIdc := .three
  constraintByte := 0
  log2MaxFrameNumMinus4 := 0
  picOrderCntType := .zero
  log2MaxPocLsbMinus4 := 0
  direct8x8Inference := true
  halfDimRound := .floor
  ueMaxCodeBits := 63
  epbInLen := true
  engineTimeout := none

/-- The fixed parameters have the values R11 states; the OPEN ones are as they are. -/
abbrev Config.asStated (c : Config) : Prop := c.toFixedParams = FixedParams.stated

/-! ## Free values -/

/-- The 32-bit draws of R250: what DATA, OUT_START and OUT_END hold after the reset event. Nothing constrains it. -/
opaque Config.freeWord : Nat → Word

/-- The bytes a host reads from memory the HCB has not written (U10) or from a stale cache line (R83, U11).
Nothing constrains it. -/
opaque Config.freeByte : Nat → Byte

end Sys2Proof
end

