-- ==== Sys2Proof/Machine/State.lean ====
section
/-! DEFINITION. The HCB's state (10_state.md), the host accesses it waits for, how a step can stop, and the state
after reset (R55). -/

namespace Sys2Proof.Machine

/-- Why the machine stops with a fault. The HCB's own faults (R220) are no stops: they are next states with
STATUS.FAULT = 1. -/
inductive Fault where
  /-- Raised by the engine run when its completion never comes, or comes after ENGINE_TIMEOUT (R274, the host's
  EngineHang). Safe: the hardware has no next register access either. -/
  | engineHang
deriving DecidableEq, Repr

/-- Why a step has no meaning. -/
inductive Refusal where
  /-- Raised by an arm of `exec` whose command has no meaning yet; no arm is left that does. Safe. -/
  | notModelled (mnemonic : String)
  /-- Raised by a register access that is not 32 bits wide (R51: "A model must refuse it"). Safe. -/
  | accessWidth
  /-- Raised by a register access at an offset that is no multiple of 4 (R51, R79). Safe. -/
  | misalignedAccess
  /-- Raised by a register access outside the 0x100-byte window (R51; U4: no HCB register). Safe. -/
  | outsideWindow
deriving DecidableEq, Repr

/-- What the host, or the engine it triggers, does to the HCB next (R53, R268, R279). -/
inductive HostAccess where
  /-- A register write of `bytes` bytes at a window offset; only `bytes = 4` is defined (R51). -/
  | regWrite (offset bytes : Nat) (value : Word)
  /-- A register read (R51). -/
  | regRead (offset bytes : Nat)
  /-- A byte read of physical memory through the CPU's caches, the harvest of R266. -/
  | memRead (addr : Word)
  /-- `flush_cache(buffer, size)` (R83, R91). -/
  | flushCache (base : Word) (size : Nat)
  /-- The external action EngineRun (R268): the slice data it appends, and after how long its completion signal
  comes (`none`: never, R274). -/
  | engineRun (slice : Bits) (wait : Option Nat)
  /-- The reset event: power-on, or the host's `open()` (R250). -/
  | openEngine
deriving DecidableEq, Repr

/-- What the last read gave the host. -/
inductive HostReply where
  | none
  /-- The word of a register read. -/
  | reg (value : Word)
  /-- The byte of a memory read. -/
  | mem (value : Byte)
deriving DecidableEq, Repr

/-- The HCB's fault codes (R221), in the order of their numbers 1 to 8. -/
inductive FaultCode where
  | illegalCmd
  | bitsWidth
  | ueRange
  | seRange
  | mbRange
  | geoRange
  | unalignedStart
  | overflow
deriving DecidableEq, Repr

/-- Physical memory as the HCB has written it: `(address, byte)` pairs, addresses strictly rising. An address that is
not listed holds no value the spec states (R251). -/
abbrev Memory := List Host.Cell

/-- The bit accumulator's hidden state (R34, R35). -/
structure Acc where
  /-- ACC.NBYTES: bytes written since the last VLE_RESET or reset, EPBs included. -/
  nbytes : Nat
  /-- ACC.PENDING: the bits since the last complete byte, first bit first. -/
  pending : Bits
  /-- ACC.ZRUN: consecutive zero bytes most recently written, saturating at 2. -/
  zrun : Nat
  /-- ACC.NEPB: EPBs written; counts only in the EPB_IN_LEN = false setting (R35). -/
  nepb : Nat
deriving DecidableEq, Repr

/-- The empty accumulator (R55). -/
def Acc.empty : Acc where
  nbytes := 0
  pending := []
  zrun := 0
  nepb := 0

/-- The registers that GEO_COMPUTE latches (R41 to R46). -/
structure GeoRegs where
  src : Word
  mb : Word
  tile : Word
  tile2 : Word
  planeSize : Word
  inputSize : Word
  reconSize : Word
  smallLumaSize : Word
  chromaOffset : Word
  reconChromaOffset : Word
deriving DecidableEq, Repr

/-- All zero: after reset (R55) and after GEO_CLEAR (R195). -/
def GeoRegs.zero : GeoRegs where
  src := 0
  mb := 0
  tile := 0
  tile2 := 0
  planeSize := 0
  inputSize := 0
  reconSize := 0
  smallLumaSize := 0
  chromaOffset := 0
  reconChromaOffset := 0

/-- The machine. -/
structure State where
  /-- The parameters of R11; no step changes them. -/
  cfg : Config
  /-- DATA (R33). -/
  data : Word
  /-- The accumulator (R34). -/
  acc : Acc
  /-- CTRL.EPB_DIS (R36). -/
  epbDis : Bool
  /-- OUT_START (R37). -/
  outStart : Word
  /-- OUT_END (R38). -/
  outEnd : Word
  /-- STATUS.FAULT (R39). -/
  fault : Bool
  /-- STATUS.FAULT_CODE (R39, R221). -/
  faultCode : BitVec 4
  /-- FAULT_CMD (R40). -/
  faultCmd : Word
  /-- STATUS.GEO_VALID (R39). -/
  geoValid : Bool
  /-- The GEO_* registers (R41 to R46). -/
  geo : GeoRegs
  /-- Physical memory, as far as the HCB and the engine have written it (R70). -/
  mem : Memory
  /-- The addresses written since a flush last covered them, strictly rising: there a CPU read may be stale (R83). -/
  dirty : List Nat
  /-- The host accesses still to come, oldest first (R53, R82). -/
  inputs : List HostAccess
  /-- What the last read gave the host. -/
  reply : HostReply
  /-- How many free values have been drawn. -/
  freeCount : Nat
deriving DecidableEq, Repr

/-- The machine right after reset (R55, R250, R251). DATA, OUT_START and OUT_END are unspecified there; the model
names zero (DESIGN CHOICE, notes/assumptions/2.md). -/
def State.reset : State where
  cfg := Config.default
  data := 0
  acc := Acc.empty
  epbDis := false
  outStart := 0
  outEnd := 0
  fault := false
  faultCode := 0
  faultCmd := 0
  geoValid := false
  geo := GeoRegs.zero
  mem := []
  dirty := []
  inputs := []
  reply := .none
  freeCount := 0

end Sys2Proof.Machine
end

