-- ==== Sys2Proof/Machine/Operands.lean ====
section
/-! DEFINITION. Operands: the views of DATA (R102), bit strings (R14), the Exp-Golomb codes (R132, R136, R138) and the
operand check of every command (R223). -/

namespace Sys2Proof.Machine

/-! ## The views of DATA (R102) -/

/-- DATA[15:0], unsigned. -/
def dataLow (d : Word) : Nat := (d.extractLsb' 0 16).toNat

/-- DATA[31:16], unsigned. -/
def dataHigh (d : Word) : Nat := (d.extractLsb' 16 16).toNat

/-- `(high << 16) | low`, the packing of GEO_SRC, GEO_MB, GEO_TILE and GEO_TILE2 (R194). -/
def packHalves (high low : Nat) : Word := (BitVec.ofNat 32 high <<< 16) ||| BitVec.ofNat 32 low

/-! ## Bit strings (R14) -/

/-- `bin(v, n)`: the n-bit string of `v mod 2^n`, most significant bit first (R14). -/
def bin (v : Nat) : Nat → Bits
  | 0 => []
  | n + 1 => v.testBit n :: bin v n

/-- `zeros(k)` (R14). -/
def zeros (k : Nat) : Bits := List.replicate k false

/-- The number a bit string spells, first bit most significant. -/
def natOfBits (s : Bits) : Nat := s.foldl (fun n b => 2 * n + b.toNat) 0

/-- The 8-bit value of a bit string, first bit = bit 7 (R72, R76). -/
def byteOfBits (s : Bits) : Byte := BitVec.ofNat 8 (natOfBits s)

/-! ## Exp-Golomb codes -/

/-- `ue_code(v)` (R132). -/
def ueCode (v : Nat) : Bits := bin (v + 1) (2 * (v + 1).log2 + 1)

/-- `se_map(v)`, the source's formula on 32-bit two's complement (R136). -/
def seMap (v : Word) : Word :=
  let t := 2 * v - 1
  t ^^^ t.sshiftRight 31

/-- `se_code(v) = ue_code(se_map(v))` (R138). -/
def seCode (v : Word) : Bits := ueCode (seMap v).toNat

/-- `se(v)` of a syntax table: the code of v as a 32-bit word (R20, R138). -/
def seRow (v : Int) : Bits := seCode (BitVec.ofInt 32 v)

/-- A one-bit flag of a syntax table, `u(1)` (R20). -/
def flag (b : Bool) : Bits := [b]

/-! ## Operand checks (R223): they read the command word and DATA only -/

/-- PUT_BITS (R131, R107). -/
def checkBits (cfg : Config) (n : Nat) : Option FaultCode := if n > cfg.bitsMaxN then some .bitsWidth else none

/-- PUT_UE (R134, R135). -/
def checkUe (cfg : Config) (d : Word) : Option FaultCode :=
  if d = 0xFFFFFFFF ∨ (ueCode d.toNat).length > cfg.ueMaxCodeBits then some .ueRange else none

/-- PUT_SE (R137, R139). -/
def checkSe (cfg : Config) (d : Word) : Option FaultCode :=
  if d.toInt < -(2 ^ 30 - 1) ∨ d.toInt > 2 ^ 30 then some .seRange
  else if (seCode d).length > cfg.ueMaxCodeBits then some .seRange
  else none

/-- PUT_SPS, and PUT_FRAME_HEADERS with F = 1 (R166). -/
def checkMb (d : Word) : Option FaultCode :=
  if dataLow d = 0 ∨ dataHigh d = 0 then some .mbRange else none

/-- PUT_FRAME_HEADERS: the check runs only when F = 1 (R180). -/
def checkFrame (f : Bool) (d : Word) : Option FaultCode := if f then checkMb d else none

/-- The declared domain of the geometry calculator (R191). -/
def geoInDomain (cfg : Config) (w h : Nat) : Bool :=
  decide (cfg.wMin ≤ w) && decide (w ≤ cfg.wMax) && decide (cfg.hMin ≤ h) && decide (h ≤ cfg.hMax)

/-- GEO_COMPUTE (R191, R194). -/
def checkGeo (cfg : Config) (d : Word) : Option FaultCode :=
  if geoInDomain cfg (dataLow d) (dataHigh d) then none else some .geoRange

end Sys2Proof.Machine
end

