-- ==== Sys2Proof/Machine/Flags.lean ====
section
/-! DEFINITION. The status words: the numbers of the fault codes (R221), and STATUS, CTRL and VLE_LEN as a host reads
them (R35, R36, R39). No arithmetic result sets a flag (R54). -/

namespace Sys2Proof.Machine

/-- The number of a fault code (R221). -/
def faultCodeBits : FaultCode → BitVec 4
  | .illegalCmd => 1
  | .bitsWidth => 2
  | .ueRange => 3
  | .seRange => 4
  | .mbRange => 5
  | .geoRange => 6
  | .unalignedStart => 7
  | .overflow => 8

/-- STATUS: FAULT in bit 0, GEO_VALID in bit 1, FAULT_CODE in bits 11:8, the rest read as zero (R39). -/
def statusWord (s : State) : Word :=
  BitVec.ofNat 20 0 ++ s.faultCode ++ BitVec.ofNat 6 0 ++ BitVec.ofBool s.geoValid ++ BitVec.ofBool s.fault

/-- CTRL: EPB_DIS in bit 0, the rest read as zero (R36). -/
def ctrlWord (s : State) : Word := BitVec.ofNat 31 0 ++ BitVec.ofBool s.epbDis

/-- VLE_LEN (R35), under either setting of EPB_IN_LEN. -/
def vleLen (s : State) : Word :=
  let epbs : Int := if s.cfg.epbInLen then 0 else s.acc.nepb
  BitVec.ofInt 32 (8 * (s.acc.nbytes - epbs) + s.acc.pending.length)

/-- `8 * ACC.NBYTES + |ACC.PENDING|`, the length PUT_TRAILING reads (R152). -/
def accBits (a : Acc) : Nat := 8 * a.nbytes + a.pending.length

/-- The bit that a host write to STATUS clears the fault with, and the bit that CTRL keeps (R36, R39). -/
def bitZero (v : Word) : Bool := v.getLsbD 0

end Sys2Proof.Machine
end

