-- ==== Sys2Proof/Machine/Ops.lean ====
section
/-! DEFINITION. The operations every command shares: memory, the append primitives (R72 to R75), fault entry and fault
clear (R226, R230), and the execution frame (R228). -/

namespace Sys2Proof.Machine

/-! ## Memory -/

/-- The canonical form: addresses strictly rising, each of them a 32-bit physical address (R70). -/
abbrev Memory.wf (m : Memory) : Prop :=
  m.Pairwise (fun p q => p.1 < q.1) ∧ ∀ p ∈ m, p.1 < 2 ^ 32

/-- What the memory holds at an address; `none` where the HCB has written nothing (R251). -/
def Memory.read : Memory → Nat → Option Byte
  | [], _ => none
  | (a, b) :: m, x => if x = a then some b else Memory.read m x

/-- `MemWrite(addr, 1, b)` (R17), keeping the canonical form. -/
def Memory.write : Memory → Nat → Byte → Memory
  | [], x, v => [(x, v)]
  | (a, b) :: m, x, v =>
    if x < a then (x, v) :: (a, b) :: m
    else if x = a then (x, v) :: m
    else (a, b) :: Memory.write m x v

/-- Adds an address to a strictly rising list of addresses. -/
def insertAddr : List Nat → Nat → List Nat
  | [], x => [x]
  | a :: l, x => if x < a then x :: a :: l else if x = a then a :: l else a :: insertAddr l x

/-- Takes the addresses of `[base, base + size)` out of a list of addresses. -/
def removeRange (l : List Nat) (base size : Nat) : List Nat :=
  l.filter (fun a => !(decide (base ≤ a) && decide (a < base + size)))

/-! ## The append primitives -/

/-- What the append primitives read and never write: OUT_START, OUT_END, and whether ACC.NEPB counts (R35). -/
structure OutPort where
  start : Word
  limit : Word
  countEpb : Bool
deriving DecidableEq, Repr

/-- What the append primitives change: the tentative copy of R228, and R75's `overflow`. -/
structure Stream where
  acc : Acc
  mem : Memory
  dirty : List Nat
  overflow : Bool
deriving DecidableEq, Repr

/-- The port of a state. -/
def State.port (s : State) : OutPort := ⟨s.outStart, s.outEnd, !s.cfg.epbInLen⟩

/-- The tentative copy a command starts from (R228). -/
def State.stream (s : State) : Stream := ⟨s.acc, s.mem, s.dirty, false⟩

/-- The commit of a tentative copy (R228). -/
def State.commit (s : State) (o : Stream) : State := { s with acc := o.acc, mem := o.mem, dirty := o.dirty }

/-- `WriteByte(b)` (R75). The address is an exact integer. -/
def writeByte (p : OutPort) (b : Byte) (o : Stream) : Stream :=
  let a := p.start.toNat + o.acc.nbytes
  let acc := { o.acc with nbytes := o.acc.nbytes + 1 }
  if p.limit.toNat ≤ a ∨ 2 ^ 32 ≤ a then { o with acc := acc, overflow := true }
  else { o with acc := acc, mem := o.mem.write a b, dirty := insertAddr o.dirty a }

/-- The insertion of an emulation-prevention byte: it resets ZRUN, and counts in NEPB where that counter exists
(R73, R35). -/
def insertEpb (p : OutPort) (o : Stream) : Stream :=
  let o := writeByte p 0x03 o
  { o with acc := { o.acc with zrun := 0, nepb := if p.countEpb then o.acc.nepb + 1 else o.acc.nepb } }

/-- `ACC.ZRUN` after a byte (R73). -/
def zrunAfter (z : Nat) (b : Byte) : Nat := if b = 0 then min (z + 1) 2 else 0

/-- When R73 inserts an EPB before a byte. -/
def needsEpb (epbActive : Bool) (z : Nat) (b : Byte) : Bool :=
  epbActive && z == 2 && decide (b.toNat ≤ 0x03)

/-- `EmitByte(byte, epb_active)` (R73). -/
def emitByte (p : OutPort) (epbActive : Bool) (b : Byte) (o : Stream) : Stream :=
  let o := if needsEpb epbActive o.acc.zrun b then insertEpb p o else o
  let o := writeByte p b o
  { o with acc := { o.acc with zrun := zrunAfter o.acc.zrun b } }

/-- One round of `Append`'s loop (R72). -/
def appendBit (p : OutPort) (epbActive : Bool) (o : Stream) (bit : Bool) : Stream :=
  let pend := o.acc.pending ++ [bit]
  if pend.length = 8 then
    emitByte p epbActive (byteOfBits pend) { o with acc := { o.acc with pending := [] } }
  else { o with acc := { o.acc with pending := pend } }

/-- The loop of `Append` over a bit string (R72), for one setting of `epb_active`. -/
def appendBits (p : OutPort) (epbActive : Bool) (bits : Bits) (o : Stream) : Stream :=
  bits.foldl (appendBit p epbActive) o

/-- `Append(s)` with the CTRL and OUT_* of a state (R72). -/
def State.append (s : State) (bits : Bits) (o : Stream) : Stream := appendBits s.port (!s.epbDis) bits o

/-- `AppendRaw(s)`: no byte it completes gets an EPB, whatever CTRL holds (R74). -/
def State.appendRaw (s : State) (bits : Bits) (o : Stream) : Stream := appendBits s.port false bits o

/-! ## Fault entry and fault clear -/

/-- `RaiseFault(c, word)` (R226): the three fault fields, and nothing else. -/
def raiseFault (c : FaultCode) (word : Word) (s : State) : State :=
  { s with fault := true, faultCode := faultCodeBits c, faultCmd := word }

/-- The way back from a fault (R230): the three fault fields return to 0, and nothing else changes. -/
def clearFault (s : State) : State := { s with fault := false, faultCode := 0, faultCmd := 0 }

/-! ## The execution frame -/

/-- `Execute(w)` of R228 for a decoded command: ignored while FAULT = 1 (R229), then the checks in R227's order, then
the effect, which answers none where a WriteByte overflowed. FAULT_CMD takes the command's word. -/
def execute (i : Instr) (operand : Option FaultCode) (needsAligned : Bool) (effect : State → Option State)
    (s : State) : State :=
  if s.fault then s
  else
    match operand with
    | some c => raiseFault c (encode i) s
    | none =>
      if needsAligned && !s.acc.pending.isEmpty then raiseFault .unalignedStart (encode i) s
      else
        match effect s with
        | some t => t
        | none => raiseFault .overflow (encode i) s

/-- A command's emission as an effect: it runs on the tentative copy, and commits unless a byte overflowed (R228). -/
def emission (emit : State → Stream → Stream) (s : State) : Option State :=
  let o := emit s s.stream
  if o.overflow then none else some (s.commit o)

/-- `Execute(w)` of R228 for a word that decodes to ILLEGAL (R222), ignored while FAULT = 1 (R229). -/
def executeIllegal (word : Word) (s : State) : State :=
  if s.fault then s else raiseFault .illegalCmd word s

end Sys2Proof.Machine
end

