-- ==== Sys2Proof/Machine/Bus.lean ====
section
/-! DEFINITION. What the outside does to the HCB: register reads and writes (R31 to R51), the reset event (R250), the
engine run (R268), cache flushes and CPU reads of the output buffer (R83). -/

namespace Sys2Proof.Machine

/-! ## Register window -/

/-- The offset of CMD (R31). -/
def cmdOffset : Nat := 0x00

/-- R51: a 32-bit access at a 4-byte-aligned offset inside the window; any other is refused. -/
def checkAccess (cfg : Config) (offset bytes : Nat) : Option Refusal :=
  if bytes ≠ 4 then some .accessWidth
  else if offset % 4 ≠ 0 then some .misalignedAccess
  else if cfg.regWindowSize ≤ offset then some .outsideWindow
  else none

/-- The word a read of a register gives (R31). CMD reads 0 (R32), and so does a reserved offset (R49). -/
def readReg (offset : Nat) (s : State) : Word :=
  match offset with
  | 0x04 => s.data
  | 0x08 => vleLen s
  | 0x0C => ctrlWord s
  | 0x10 => s.outStart
  | 0x14 => s.outEnd
  | 0x18 => statusWord s
  | 0x1C => s.faultCmd
  | 0x20 => s.geo.src
  | 0x24 => s.geo.mb
  | 0x28 => s.geo.tile
  | 0x2C => s.geo.tile2
  | 0x30 => s.geo.planeSize
  | 0x34 => s.geo.inputSize
  | 0x38 => s.geo.reconSize
  | 0x3C => s.geo.smallLumaSize
  | 0x40 => s.geo.chromaOffset
  | 0x44 => s.geo.reconChromaOffset
  | 0x48 => BitVec.ofNat 32 s.cfg.outputBufSize
  | 0x4C => BitVec.ofNat 32 s.cfg.mbinfoBufSize
  | _ => 0

/-- A host write to a register other than CMD (R31). A write to a read-only register or a reserved offset is ignored
(R49, R50); one to STATUS with bit 0 = 1 clears the fault (R230). -/
def writeReg (offset : Nat) (v : Word) (s : State) : State :=
  match offset with
  | 0x04 => { s with data := v }
  | 0x0C => { s with epbDis := bitZero v }
  | 0x10 => { s with outStart := v }
  | 0x14 => { s with outEnd := v }
  | 0x18 => if bitZero v then clearFault s else s
  | _ => s

/-! ## Other events -/

/-- The reset event (R250): R55's values, with DATA, OUT_START and OUT_END drawn, memory and the caches not touched
(R251), and the parameters as they are. -/
def resetEvent (s : State) : State :=
  { s with
    data := Config.freeWord s.freeCount
    acc := Acc.empty
    epbDis := false
    outStart := Config.freeWord (s.freeCount + 1)
    outEnd := Config.freeWord (s.freeCount + 2)
    fault := false
    faultCode := 0
    faultCmd := 0
    geoValid := false
    geo := GeoRegs.zero
    freeCount := s.freeCount + 3 }

/-- Whether the completion signal comes in time (R274). -/
def completesInTime (timeout wait : Option Nat) : Bool :=
  match wait, timeout with
  | none, _ => false
  | some _, none => true
  | some n, some t => decide (n ≤ t)

/-- EngineRun (R268): the slice data through `Append`; nothing else of the HCB changes. No command runs, so a byte that
does not fit is not written (R75) and raises nothing. -/
def engineAppend (slice : Bits) (s : State) : State := s.commit (s.append slice s.stream)

/-- `flush_cache` (R83): the HCB's and the engine's bytes in the range become visible to the CPU. -/
def flushRange (base : Word) (size : Nat) (s : State) : State :=
  { s with dirty := removeRange s.dirty base.toNat size }

/-- A CPU read of one byte: the byte in memory where the HCB has written one and a flush has covered it since, any
value otherwise (R83, U10, U11). -/
def hostMemRead (addr : Word) (s : State) : State :=
  match (if addr.toNat ∈ s.dirty then none else Memory.read s.mem addr.toNat) with
  | some b => { s with reply := .mem b }
  | none => { s with reply := .mem (Config.freeByte s.freeCount), freeCount := s.freeCount + 1 }

/-! ## One access -/

/-- What an access asks of the machine. -/
inductive BusAction where
  /-- It is done, and this is the state after it. -/
  | done (s : State)
  /-- It is a write to CMD: the command word runs (R32). -/
  | command (word : Word)
  | fault (r : Fault)
  | refused (r : Refusal)

/-- The next access and the state without it (R82: one at a time, in the order the host issues them). -/
def nextAccess (s : State) : Option (HostAccess × State) :=
  match s.inputs with
  | [] => none
  | a :: rest => some (a, { s with inputs := rest })

/-- One access, on the state it has been taken from. -/
def busAction (a : HostAccess) (s : State) : BusAction :=
  match a with
  | .regWrite offset bytes v =>
    match checkAccess s.cfg offset bytes with
    | some r => .refused r
    | none => if offset = cmdOffset then .command v else .done (writeReg offset v s)
  | .regRead offset bytes =>
    match checkAccess s.cfg offset bytes with
    | some r => .refused r
    | none => .done { s with reply := .reg (readReg offset s) }
  | .memRead addr => .done (hostMemRead addr s)
  | .flushCache base size => .done (flushRange base size s)
  | .engineRun slice wait =>
    if completesInTime s.cfg.engineTimeout wait then .done (engineAppend slice s) else .fault .engineHang
  | .openEngine => .done (resetEvent s)

/-- The access that issues a command word. -/
def cmdWrite (word : Word) : HostAccess := .regWrite cmdOffset 4 word

/-- With no access pending the HCB waits (R252). -/
def idle (s : State) : State := s

end Sys2Proof.Machine
end

