-- ==== Sys2Proof/Machine/Control.lean ====
section
/-! DEFINITION. The commands that emit no bits: NOP and VLE_RESET (43_control.md). -/

namespace Sys2Proof.Machine

/-- The effect of VLE_RESET: the accumulator is empty, memory is not touched (R211). -/
def resetAccumulator (s : State) : State := { s with acc := Acc.empty }

/-- NOP (R210). -/
def execNop (s : State) : Host.Outcome State Fault Refusal :=
  .next (execute .nop none false (fun s => some s) s)

/-- VLE_RESET (R211). -/
def execVleReset (s : State) : Host.Outcome State Fault Refusal :=
  .next (execute .vleReset none false (fun s => some (resetAccumulator s)) s)

end Sys2Proof.Machine
end

