-- ==== Sys2Proof/Machine/ExpGolomb.lean ====
section
/-! DEFINITION. The Exp-Golomb family: PUT_BITS, PUT_UE, PUT_SE (40_expgolomb.md). -/

namespace Sys2Proof.Machine

/-- PUT_BITS (R131): the low N bits of DATA. -/
def execPutBits (n : Nat) (s : State) : Host.Outcome State Fault Refusal :=
  .next (execute (.putBits n) (checkBits s.cfg n) false (emission fun s => s.append (bin s.data.toNat n)) s)

/-- PUT_UE (R135). -/
def execPutUe (s : State) : Host.Outcome State Fault Refusal :=
  .next (execute .putUe (checkUe s.cfg s.data) false (emission fun s => s.append (ueCode s.data.toNat)) s)

/-- PUT_SE (R139). -/
def execPutSe (s : State) : Host.Outcome State Fault Refusal :=
  .next (execute .putSe (checkSe s.cfg s.data) false (emission fun s => s.append (seCode s.data)) s)

end Sys2Proof.Machine
end

