-- ==== Sys2Proof/Machine/Geometry.lean ====
section
/-! DEFINITION. The geometry calculator: GEO_COMPUTE and GEO_CLEAR (42_geometry.md). -/

namespace Sys2Proof.Machine

/-- `ceil_div(a, b)` (R15). -/
def ceilDiv (a b : Nat) : Nat := (a + b - 1) / b

/-- `round_up(a, m)` (R15, R192). -/
def roundUp (a m : Nat) : Nat := ceilDiv a m * m

/-- `half(a)` under `HALF_DIM_ROUND` (R192). -/
def halfDim (r : HalfDimRound) (a : Nat) : Nat :=
  match r with
  | .floor => a / 2
  | .ceil => ceilDiv a 2

/-- mb_w of a width, mb_h of a height (R192). -/
def mbDim (cfg : Config) (a : Nat) : Nat := ceilDiv a cfg.mbSize

/-- tile_w of a width, tile_h of a height (R192). -/
def tileDim (cfg : Config) (a : Nat) : Nat := roundUp a cfg.tileAlign

/-- tile_w2 of a width, tile_h2 of a height (R192). -/
def tile2Dim (cfg : Config) (a : Nat) : Nat := roundUp (halfDim cfg.halfDimRound a) cfg.tileAlign

/-- plane_size (R193). -/
def planeSize (cfg : Config) (w h : Nat) : Nat := (mbDim cfg w * cfg.mbSize) * (mbDim cfg h * cfg.mbSize)

/-- input_size (R193). -/
def inputSize (cfg : Config) (w h : Nat) : Nat := planeSize cfg w h * cfg.inputFactorNum / cfg.inputFactorDen

/-- recon_chroma_off (R193). -/
def reconChromaOff (cfg : Config) (w h : Nat) : Nat := tileDim cfg w * tileDim cfg h

/-- recon_size (R193). -/
def reconSize (cfg : Config) (w h : Nat) : Nat := tileDim cfg w * tileDim cfg h + tileDim cfg w * tile2Dim cfg h

/-- small_luma_size (R193). -/
def smallLumaSize (cfg : Config) (w h : Nat) : Nat := tile2Dim cfg w * tile2Dim cfg h

/-- The GEO_* registers after GEO_COMPUTE of (w, h) (R194). -/
def geoRegsOf (cfg : Config) (w h : Nat) : GeoRegs where
  src := packHalves h w
  mb := packHalves (mbDim cfg h) (mbDim cfg w)
  tile := packHalves (tileDim cfg h) (tileDim cfg w)
  tile2 := packHalves (tile2Dim cfg h) (tile2Dim cfg w)
  planeSize := BitVec.ofNat 32 (planeSize cfg w h)
  inputSize := BitVec.ofNat 32 (inputSize cfg w h)
  reconSize := BitVec.ofNat 32 (reconSize cfg w h)
  smallLumaSize := BitVec.ofNat 32 (smallLumaSize cfg w h)
  chromaOffset := BitVec.ofNat 32 (planeSize cfg w h)
  reconChromaOffset := BitVec.ofNat 32 (reconChromaOff cfg w h)

/-- The effect of GEO_COMPUTE: every GEO_* register at once, and GEO_VALID (R190, R194). -/
def latchGeometry (s : State) : State :=
  { s with geo := geoRegsOf s.cfg (dataLow s.data) (dataHigh s.data), geoValid := true }

/-- The effect of GEO_CLEAR (R195). -/
def clearGeometry (s : State) : State := { s with geo := GeoRegs.zero, geoValid := false }

/-- GEO_COMPUTE (R194). -/
def execGeoCompute (s : State) : Host.Outcome State Fault Refusal :=
  .next (execute .geoCompute (checkGeo s.cfg s.data) false (fun s => some (latchGeometry s)) s)

/-- GEO_CLEAR (R195). -/
def execGeoClear (s : State) : Host.Outcome State Fault Refusal :=
  .next (execute .geoClear none false (fun s => some (clearGeometry s)) s)

end Sys2Proof.Machine
end

