-- ==== Sys2Proof/Machine/NalComposer.lean ====
section
/-! DEFINITION. The NAL-unit composer (41_nal_composer.md): the bit strings of its units, and its commands. -/

namespace Sys2Proof.Machine

/-! ## Bit strings of the units -/

/-- The value of `NAL_REF_IDC` (R163). -/
def nalRefIdcValue : NalRefIdc → Nat
  | .one => 1
  | .two => 2
  | .three => 3

/-- The value of `PIC_ORDER_CNT_TYPE` (R165 row 9). -/
def pocTypeValue : PocType → Nat
  | .zero => 0
  | .two => 2

/-- `nal_header(ref_idc, type)` (R150). -/
def nalHeader (refIdc type : Nat) : Bits := bin 0 1 ++ bin refIdc 2 ++ bin type 5

/-- The Annex-B start code (R151). -/
def startCodeBits : Bits := bin 0x00000001 32

/-- RBSP trailing bits after `len` bits: the stop bit and `8 - ((len + 1) mod 8)` zeros (R152). -/
def trailingBits (len : Nat) : Bits := [true] ++ zeros (8 - (len + 1) % 8)

/-- The access unit delimiter (R160, R161); its nal_ref_idc is 0 (R162). -/
def audBits (cfg : Config) : Bits := nalHeader 0 9 ++ bin cfg.primaryPicType.val 3

/-- The elements of the SPS that depend on `PIC_ORDER_CNT_TYPE` (R165 row 10). -/
def spsPocBits (cfg : Config) : Bits :=
  match cfg.picOrderCntType with
  | .zero => ueCode cfg.log2MaxPocLsbMinus4
  | .two => []

/-- The sequence parameter set (R165, R167). -/
def spsBits (cfg : Config) (mbW mbH : Nat) : Bits :=
  nalHeader (nalRefIdcValue cfg.nalRefIdc) 7 ++ bin cfg.profileIdc.toNat 8 ++ bin cfg.constraintByte.toNat 8
    ++ bin cfg.levelIdc.toNat 8
    ++ ueCode 0 ++ ueCode cfg.log2MaxFrameNumMinus4 ++ ueCode (pocTypeValue cfg.picOrderCntType)
    ++ spsPocBits cfg
    ++ ueCode cfg.maxNumRefFrames ++ flag false ++ ueCode (mbW - 1) ++ ueCode (mbH - 1)
    ++ flag true ++ flag cfg.direct8x8Inference ++ flag false ++ flag false

/-- The picture parameter set (R170, R171). -/
def ppsBits (cfg : Config) : Bits :=
  nalHeader (nalRefIdcValue cfg.nalRefIdc) 8 ++ ueCode 0 ++ ueCode 0 ++ flag true ++ flag false ++ ueCode 0
    ++ ueCode 0 ++ ueCode 0 ++ flag false ++ bin 0 2 ++ seRow 0 ++ seRow 0 ++ seRow cfg.chromaQpIndexOffset
    ++ flag true ++ flag false ++ flag false

/-- pic_order_cnt_lsb, present only when `PIC_ORDER_CNT_TYPE` = 0 (R175 row 9). -/
def slicePocBits (cfg : Config) : Bits :=
  match cfg.picOrderCntType with
  | .zero => bin 0 (cfg.log2MaxPocLsbMinus4 + 4)
  | .two => []

/-- The slice header (R175, R176). -/
def sliceHeaderBits (cfg : Config) : Bits :=
  nalHeader (nalRefIdcValue cfg.nalRefIdc) 5 ++ ueCode 0 ++ ueCode cfg.sliceType ++ ueCode 0
    ++ bin 0 (cfg.log2MaxFrameNumMinus4 + 4) ++ ueCode 0
    ++ slicePocBits cfg
    ++ flag false ++ flag false ++ seRow cfg.sliceQpDelta ++ ueCode 0 ++ seRow 0 ++ seRow 0

/-! ## Emissions -/

/-- The emission of PUT_START_CODE (R151). -/
def emitStartCode (s : State) (o : Stream) : Stream := s.appendRaw startCodeBits o

/-- The emission of PUT_TRAILING: the length is the accumulator's when the command starts (R152). -/
def emitTrailing (s : State) (o : Stream) : Stream := s.append (trailingBits (accBits o.acc)) o

/-- The emission of PUT_AUD (R161). -/
def emitAud (s : State) (o : Stream) : Stream := s.append (audBits s.cfg) o

/-- The emission of PUT_SPS, its operands in DATA (R167). -/
def emitSps (s : State) (o : Stream) : Stream := s.append (spsBits s.cfg (dataLow s.data) (dataHigh s.data)) o

/-- The emission of PUT_PPS (R171). -/
def emitPps (s : State) (o : Stream) : Stream := s.append (ppsBits s.cfg) o

/-- The emission of PUT_SLICE_HEADER (R176). -/
def emitSliceHeader (s : State) (o : Stream) : Stream := s.append (sliceHeaderBits s.cfg) o

/-- Step 7 of the frame (R180): start code, AUD, trailing bits. -/
def emitAudUnit (s : State) (o : Stream) : Stream := emitTrailing s (emitAud s (emitStartCode s o))

/-- Step 9 of the first frame (R180): the SPS and the PPS, each with start code and trailing bits. -/
def emitParameterSets (s : State) (o : Stream) : Stream :=
  emitTrailing s (emitPps s (emitStartCode s (emitTrailing s (emitSps s (emitStartCode s o)))))

/-- Step 10 of the frame (R180): start code and slice header. -/
def emitSliceUnit (s : State) (o : Stream) : Stream := emitSliceHeader s (emitStartCode s o)

/-- The emission of PUT_FRAME_HEADERS (R180). -/
def emitFrameHeaders (f : Bool) (s : State) (o : Stream) : Stream :=
  emitSliceUnit s (if f then emitParameterSets s (emitAudUnit s o) else emitAudUnit s o)

/-! ## Commands -/

/-- PUT_START_CODE (R151): it needs a byte boundary. -/
def execPutStartCode (s : State) : Host.Outcome State Fault Refusal :=
  .next (execute .putStartCode none true (emission emitStartCode) s)

/-- PUT_TRAILING (R152). -/
def execPutTrailing (s : State) : Host.Outcome State Fault Refusal :=
  .next (execute .putTrailing none false (emission emitTrailing) s)

/-- PUT_AUD (R161). -/
def execPutAud (s : State) : Host.Outcome State Fault Refusal :=
  .next (execute .putAud none false (emission emitAud) s)

/-- PUT_SPS (R167). -/
def execPutSps (s : State) : Host.Outcome State Fault Refusal :=
  .next (execute .putSps (checkMb s.data) false (emission emitSps) s)

/-- PUT_PPS (R171). -/
def execPutPps (s : State) : Host.Outcome State Fault Refusal :=
  .next (execute .putPps none false (emission emitPps) s)

/-- PUT_SLICE_HEADER (R176). -/
def execPutSliceHeader (s : State) : Host.Outcome State Fault Refusal :=
  .next (execute .putSliceHeader none false (emission emitSliceHeader) s)

/-- PUT_FRAME_HEADERS (R180): its operands in DATA when F = 1, a byte boundary for its first start code. -/
def execPutFrameHeaders (f : Bool) (s : State) : Host.Outcome State Fault Refusal :=
  .next (execute (.putFrameHeaders f) (checkFrame f s.data) true (emission (emitFrameHeaders f)) s)

end Sys2Proof.Machine
end

