-- ==== Sys2Proof/Machine/Dispatch.lean ====
section
/-! DEFINITION. The dispatch of a decoded command to its meaning. -/

namespace Sys2Proof.Machine

/-- One command, on the state the host's CMD write finds. -/
def exec (i : Instr) (s : State) : Host.Outcome State Fault Refusal :=
  match i with
  | .nop => Sys2Proof.Machine.execNop s
  | .putBits n => Sys2Proof.Machine.execPutBits n s
  | .putUe => Sys2Proof.Machine.execPutUe s
  | .putSe => Sys2Proof.Machine.execPutSe s
  | .putStartCode => Sys2Proof.Machine.execPutStartCode s
  | .putTrailing => Sys2Proof.Machine.execPutTrailing s
  | .putAud => Sys2Proof.Machine.execPutAud s
  | .putSps => Sys2Proof.Machine.execPutSps s
  | .putPps => Sys2Proof.Machine.execPutPps s
  | .putSliceHeader => Sys2Proof.Machine.execPutSliceHeader s
  | .putFrameHeaders f => Sys2Proof.Machine.execPutFrameHeaders f s
  | .vleReset => Sys2Proof.Machine.execVleReset s
  | .geoCompute => Sys2Proof.Machine.execGeoCompute s
  | .geoClear => Sys2Proof.Machine.execGeoClear s

end Sys2Proof.Machine
end

