-- ==== Sys2Proof/Machine/Command.lean ====
section
/-! DEFINITION. A command word, from its bits to its effect (R228). -/

namespace Sys2Proof.Machine

/-- A CMD write of a word: its command, or ILLEGAL_CMD where it has none (R104, R222). Both are ignored while FAULT = 1
(R229), so it makes no difference that the word is decoded then. -/
def runWord (word : Word) (s : State) : Host.Outcome State Fault Refusal :=
  match decode word with
  | .ok i => exec i s
  | .error _ => .next (executeIllegal word s)

end Sys2Proof.Machine
end

