-- ==== Sys2Proof/Machine/Step.lean ====
section
/-! DEFINITION. One step: the next host access takes effect, a CMD write by running its command to completion
(R32, R82). -/

namespace Sys2Proof.Machine

/-- One step of the machine. -/
def step (s : State) : Host.Outcome State Fault Refusal :=
  match nextAccess s with
  | none => .next (idle s)
  | some (a, t) =>
    match busAction a t with
    | .done u => .next u
    | .command word => runWord word t
    | .fault r => .fault r
    | .refused r => .refused r

/-- The state whose next access is the CMD write of a word that is given as the opcode table gives it. The HCB fetches
nothing (R53): its program is what the host writes. -/
def State.withFetchWord (s : State) (nbits w : Nat) : State :=
  { s with inputs := cmdWrite (tableWord nbits w) :: s.inputs }

end Sys2Proof.Machine
end

