-- ==== Sys2Proof/Machine/HostProgram.lean ====
section
/-! DEFINITION. The host's side: the pseudo-instructions of R111 and the HCB lines of the host protocol (R253 to R266),
as the accesses they stand for. -/

namespace Sys2Proof.Machine

/-- `wr REG, value` (R110), the register named by its offset (R31). -/
def wr (offset : Nat) (v : Word) : HostAccess := .regWrite offset 4 v

/-- `rd REG` (R110). -/
def rd (offset : Nat) : HostAccess := .regRead offset 4

/-- `cmd MNEMONIC` (R110). -/
def cmd (i : Instr) : HostAccess := cmdWrite (encode i)

/-- The pseudo-instructions of R111. -/
inductive Pseudo where
  | bits (v : Word) (n : Nat)
  | ue (v : Word)
  | se (v : Int)
  | startcode
  | trailing
  | aud
  | sps (w h : Nat)
  | pps
  | slicehdr
  | frame (f : Bool) (w h : Nat)
  | vlereset
  | geo (w h : Nat)
  | geoclear
  | outbuf (s e : Word)
  | epbOn
  | epbOff
  | clrfault
deriving DecidableEq, Repr

/-- The expansions of R111. -/
def expandPseudo : Pseudo → List HostAccess
  | .bits v n => [wr 0x04 v, cmd (.putBits n)]
  | .ue v => [wr 0x04 v, cmd .putUe]
  | .se v => [wr 0x04 (BitVec.ofInt 32 v), cmd .putSe]
  | .startcode => [cmd .putStartCode]
  | .trailing => [cmd .putTrailing]
  | .aud => [cmd .putAud]
  | .sps w h => [wr 0x04 (packHalves h w), cmd .putSps]
  | .pps => [cmd .putPps]
  | .slicehdr => [cmd .putSliceHeader]
  | .frame f w h => [wr 0x04 (packHalves h w), cmd (.putFrameHeaders f)]
  | .vlereset => [cmd .vleReset]
  | .geo w h => [wr 0x04 (packHalves h w), cmd .geoCompute]
  | .geoclear => [cmd .geoClear]
  | .outbuf s e => [wr 0x10 s, wr 0x14 e]
  | .epbOn => [wr 0x0C 0]
  | .epbOff => [wr 0x0C 1]
  | .clrfault => [wr 0x18 1]

/-- A program of pseudo-instructions as host accesses. -/
def expandProgram (p : List Pseudo) : List HostAccess := p.flatMap expandPseudo

/-! ## One frame -/

/-- Step 4 (R258): OUT_START, OUT_END and VLE_RESET. The spec is silent on a buffer that reaches 2^32: the model writes
out_phys + OUTPUT_BUF_SIZE modulo 2^32 (DESIGN CHOICE, notes/assumptions/22.md), so OUT_END is 0 for a buffer that ends
at the top of memory. -/
def bufferProgram (cfg : Config) (outPhys : Word) : List Pseudo :=
  [.outbuf outPhys (outPhys + BitVec.ofNat 32 cfg.outputBufSize), .vlereset]

/-- Step 7 (R261): the access unit delimiter. -/
def audProgram : List Pseudo := [.startcode, .aud, .trailing]

/-- Step 9 (R263): the parameter sets of the first frame, nothing for any other. mb_w and mb_h are GEO_MB's fields. -/
def parameterSetProgram (first : Bool) (geoMb : Word) : List Pseudo :=
  if first then
    [.startcode, .sps (dataLow geoMb) (dataHigh geoMb), .trailing, .startcode, .pps, .trailing]
  else []

/-- Step 10 (R264): the slice header. -/
def sliceProgram : List Pseudo := [.startcode, .slicehdr]

/-- The HCB part of a frame before the trigger (R255 steps 3, 4, 7, 9 and 10); `geoMb` is what GEO_MB reads. Steps 5, 6
and 8 write engine registers, which the HCB does not have (R57). -/
def frameHeaderProgram (cfg : Config) (first : Bool) (outPhys geoMb : Word) : List HostAccess :=
  .flushCache outPhys cfg.outputBufSize ::
    expandProgram (bufferProgram cfg outPhys ++ audProgram ++ parameterSetProgram first geoMb ++ sliceProgram)

/-- One frame (R255): the headers, the engine's run (R268), and the harvest's flush and length read (R266, R272). A
frame with no payload is no HCB access at all (R256). -/
def frameProgram (cfg : Config) (payload first : Bool) (outPhys geoMb : Word) (slice : Bits) (wait : Option Nat) :
    List HostAccess :=
  if payload then
    frameHeaderProgram cfg first outPhys geoMb
      ++ [.engineRun slice wait, .flushCache outPhys cfg.outputBufSize, rd 0x08]
  else []

/-- The harvest's copy (R266): the `floor(L / 8)` bytes from the buffer's start. The spec is silent on an address
OUT_START + k that reaches 2^32: the model reads it modulo 2^32 (DESIGN CHOICE, notes/assumptions/23.md). -/
def harvestReads (outPhys : Word) (len : Nat) : List HostAccess :=
  (List.range (len / 8)).map fun k => .memRead (outPhys + BitVec.ofNat 32 k)

/-! ## A stream -/

/-- One frame of a stream, as the host holds it: whether it has a payload, and what the engine makes of it. -/
structure HostFrame where
  payload : Bool
  slice : Bits
  wait : Option Nat
deriving DecidableEq, Repr

/-- The frames of a stream from frame `k` on: only the frame at offset zero carries parameter sets, even when it has no
payload and is bypassed (R275, 90_conflicts.md C8). -/
def framesFrom (cfg : Config) (k : Nat) (outPhys geoMb : Word) : List HostFrame → List HostAccess
  | [] => []
  | f :: rest =>
    frameProgram cfg f.payload (k == 0) outPhys geoMb f.slice f.wait ++ framesFrom cfg (k + 1) outPhys geoMb rest

/-- The reads of the five buffer sizes, in the order in which the host allocates: input, output, reconstruct,
small_luma, mb_info (R254). -/
def bufferSizeReads : List HostAccess := [rd 0x34, rd 0x48, rd 0x38, rd 0x3C, rd 0x4C]

/-- Ensure buffers (R254, R276): the geometry of the negotiated format, then the sizes from GEO_*. -/
def ensureBuffers (w h : Nat) : List HostAccess := expandPseudo (.geo w h) ++ bufferSizeReads

/-- Stream start (R254): `open()`, then the buffers. R254 puts them on the first frame; the spec does not say whether a
stream with no frame, or whose first frame has no payload, ensures them, and the model does so right after `open()` in
every stream (DESIGN CHOICE, notes/assumptions/24.md). -/
def streamStart (w h : Nat) : List HostAccess := .openEngine :: ensureBuffers w h

/-- Teardown (R253): the one HCB access in it. -/
def teardown : List HostAccess := expandPseudo .geoclear

/-- A stream: start, its frames, teardown (R253, R254). One geometry holds for the whole stream, and every frame's
mb_w and mb_h are the fields GEO_MB has under it (R263, R276; `streamStart_geo` in Laws/HostProgram). The buffers are
ensured whatever the frames are (DESIGN CHOICE, notes/assumptions/24.md). -/
def streamProgram (cfg : Config) (w h : Nat) (outPhys : Word) (frames : List HostFrame) : List HostAccess :=
  streamStart w h ++ framesFrom cfg 0 outPhys (geoRegsOf cfg w h).mb frames ++ teardown

end Sys2Proof.Machine
end

