-- ==== Sys2Proof/Safety.lean ====
section
/-! DEFINITION. What counts as a good state and a good run, in the terms claims use: the invariants of R56, R89 and
R196, the bytes a command writes as a function of lists (R72 to R76), and the observation at the end of a run (R278). -/

namespace Sys2Proof.Machine

/-! ## Invariants -/

/-- R34, R56: the accumulator's hidden fields are in range; NEPB counts only EPBs that NBYTES counts, and only in its
setting (R35). -/
abbrev Acc.inRange (cfg : Config) (a : Acc) : Prop :=
  a.pending.length ≤ 7 ∧ a.zrun ≤ 2 ∧ a.nepb ≤ a.nbytes ∧ (cfg.epbInLen = true → a.nepb = 0)

/-- R56: FAULT_CODE is 0 exactly when FAULT is, FAULT_CMD is 0 when FAULT is; R221: no code above 8. -/
abbrev State.faultFieldsAgree (s : State) : Prop :=
  (s.faultCode = 0 ↔ s.fault = false) ∧ (s.fault = false → s.faultCmd = 0) ∧ s.faultCode.toNat ≤ 8

/-- R190, R196: the GEO_* registers are zero, or all come from one width and height of the domain. -/
abbrev State.geoAgrees (s : State) : Prop :=
  (s.geoValid = false → s.geo = GeoRegs.zero) ∧
  (s.geoValid = true → geoInDomain s.cfg (dataLow s.geo.src) (dataHigh s.geo.src) = true ∧
    s.geo = geoRegsOf s.cfg (dataLow s.geo.src) (dataHigh s.geo.src))

/-- The addresses that may be stale are in order, and each is one the memory lists. -/
abbrev State.dirtyAgrees (s : State) : Prop :=
  s.dirty.Pairwise (· < ·) ∧ ∀ a ∈ s.dirty, a ∈ s.mem.map (·.1)

/-- The invariant every step keeps. -/
abbrev State.Inv (s : State) : Prop :=
  s.acc.inRange s.cfg ∧ s.faultFieldsAgree ∧ s.geoAgrees ∧ s.mem.wf ∧ s.dirtyAgrees

/-! ## The bytes of an emission, as a function of lists -/

/-- The complete bytes of a bit string, first bit = bit 7, and the bits left over (R72, R76). -/
def splitBytes : Bits → List Byte × Bits
  | b7 :: b6 :: b5 :: b4 :: b3 :: b2 :: b1 :: b0 :: rest =>
    (BitVec.ofNat 8 (128 * b7.toNat + 64 * b6.toNat + 32 * b5.toNat + 16 * b4.toNat
      + 8 * b3.toNat + 4 * b2.toNat + 2 * b1.toNat + b0.toNat) :: (splitBytes rest).1, (splitBytes rest).2)
  | rest => ([], rest)

/-- The run of zero bytes after one more byte, saturating at 2 (R34). -/
def zeroRun (z : Nat) (b : Byte) : Nat := if b = 0 then (if z = 0 then 1 else 2) else 0

/-- The bytes with their emulation-prevention bytes, `z` zero bytes having been written before them (R73). -/
def stuffed (active : Bool) : Nat → List Byte → List Byte
  | _, [] => []
  | z, b :: bs =>
    if active = true ∧ z = 2 ∧ b.toNat < 4 then 3 :: b :: stuffed active (zeroRun 0 b) bs
    else b :: stuffed active (zeroRun z b) bs

/-- A piece of an emission: whether EPBs may be inserted in it, and its bits. -/
abbrev Segment := Bool × Bits

/-- What an emission writes and leaves: its bytes, the pending bits, the zero run, the EPBs among the bytes. -/
structure Written where
  bytes : List Byte
  pending : Bits
  zrun : Nat
  epbs : Nat
deriving DecidableEq, Repr

/-- The bytes of an emission from given pending bits and zero run. -/
def writtenFrom (pending : Bits) (z : Nat) : List Segment → Written
  | [] => ⟨[], pending, z, 0⟩
  | (active, bits) :: rest =>
    let plain := splitBytes (pending ++ bits)
    let out := stuffed active z plain.1
    let w := writtenFrom plain.2 (out.foldl zeroRun z) rest
    ⟨out ++ w.bytes, w.pending, w.zrun, (out.length - plain.1.length) + w.epbs⟩

/-- The bytes of an emission from a state. -/
def State.written (s : State) (segs : List Segment) : Written := writtenFrom s.acc.pending s.acc.zrun segs

/-- The address of the next byte (R71). -/
def State.cursor (s : State) : Nat := s.outStart.toNat + s.acc.nbytes

/-- Every byte of the emission lies below OUT_END (R75, R225); an emission that completes no byte always fits. -/
abbrev State.fits (s : State) (segs : List Segment) : Prop :=
  (s.written segs).bytes = [] ∨ s.cursor + (s.written segs).bytes.length ≤ s.outEnd.toNat

/-- `t` is `s` after the emission: its bytes at the ascending addresses from the cursor and no other byte of memory
changed (R71, R75), the accumulator advanced, the written addresses not yet visible to the CPU (R83), and every other
piece of state as it was. -/
structure State.Emits (s : State) (segs : List Segment) (t : State) : Prop where
  nbytes : t.acc.nbytes = s.acc.nbytes + (s.written segs).bytes.length
  pending : t.acc.pending = (s.written segs).pending
  zrun : t.acc.zrun = (s.written segs).zrun
  nepb : t.acc.nepb = if s.cfg.epbInLen then s.acc.nepb else s.acc.nepb + (s.written segs).epbs
  bytes : ∀ k, k < (s.written segs).bytes.length →
    Memory.read t.mem (s.cursor + k) = (s.written segs).bytes[k]?
  elsewhere : ∀ a, a < s.cursor ∨ s.cursor + (s.written segs).bytes.length ≤ a →
    Memory.read t.mem a = Memory.read s.mem a
  dirty : ∀ a, a ∈ t.dirty ↔
    a ∈ s.dirty ∨ (s.cursor ≤ a ∧ a < s.cursor + (s.written segs).bytes.length)
  frame : t = { s with acc := t.acc, mem := t.mem, dirty := t.dirty }

/-! ## The syntax tables (R160, R165, R170, R175), in the descriptor notation of R20 -/

/-- One row of a syntax table. -/
inductive SyntaxElement where
  | u (n v : Nat)
  | ue (v : Nat)
  | se (v : Int)
deriving DecidableEq, Repr

/-- The zig-zag code number of a signed value (R136: `2v - 1` for v > 0 and `-2v` for v <= 0). -/
def zigzag (v : Int) : Nat := (if 0 < v then 2 * v - 1 else -2 * v).toNat

/-- The bits of a row: `se(v)` is the se_code of R138 (R20). -/
def elementBits : SyntaxElement → Bits
  | .u n v => bin v n
  | .ue v => ueCode v
  | .se v => seCode (BitVec.ofInt 32 v)

/-- "In the NAL tables each row is appended in table order" (R20). -/
def tableBits (t : List SyntaxElement) : Bits := t.flatMap elementBits

/-- R160. -/
def audTable (cfg : Config) : List SyntaxElement :=
  [.u 1 0, .u 2 0, .u 5 9, .u 3 cfg.primaryPicType.val]

/-- R165. -/
def spsTable (cfg : Config) (mbW mbH : Nat) : List SyntaxElement :=
  [.u 1 0, .u 2 (nalRefIdcValue cfg.nalRefIdc), .u 5 7, .u 8 cfg.profileIdc.toNat,
    .u 8 cfg.constraintByte.toNat, .u 8 cfg.levelIdc.toNat, .ue 0, .ue cfg.log2MaxFrameNumMinus4,
    .ue (pocTypeValue cfg.picOrderCntType)]
  ++ (if cfg.picOrderCntType = .zero then [.ue cfg.log2MaxPocLsbMinus4] else [])
  ++ [.ue cfg.maxNumRefFrames, .u 1 0, .ue (mbW - 1), .ue (mbH - 1), .u 1 1,
    .u 1 cfg.direct8x8Inference.toNat, .u 1 0, .u 1 0]

/-- R170. -/
def ppsTable (cfg : Config) : List SyntaxElement :=
  [.u 1 0, .u 2 (nalRefIdcValue cfg.nalRefIdc), .u 5 8, .ue 0, .ue 0, .u 1 1, .u 1 0, .ue 0, .ue 0, .ue 0, .u 1 0,
    .u 2 0, .se 0, .se 0, .se cfg.chromaQpIndexOffset, .u 1 1, .u 1 0, .u 1 0]

/-- R175. -/
def sliceTable (cfg : Config) : List SyntaxElement :=
  [.u 1 0, .u 2 (nalRefIdcValue cfg.nalRefIdc), .u 5 5, .ue 0, .ue cfg.sliceType, .ue 0,
    .u (cfg.log2MaxFrameNumMinus4 + 4) 0, .ue 0]
  ++ (if cfg.picOrderCntType = .zero then [.u (cfg.log2MaxPocLsbMinus4 + 4) 0] else [])
  ++ [.u 1 0, .u 1 0, .se cfg.sliceQpDelta, .ue 0, .se 0, .se 0]

/-! ## What each command emits, and where it faults -/

/-- The low `n` bits of a word, most significant first (R131). -/
def lowBits (d : Word) (n : Nat) : Bits := (List.range n).map fun k => d.getLsbD (n - 1 - k)

/-- The stop bit and the zeros of R152 after `len` bits. -/
def stopAndZeros (len : Nat) : Bits := true :: List.replicate (8 - (len + 1) % 8) false

/-- The start code as a segment that takes no EPB (R151). -/
def startSegment : Segment := (false, List.replicate 31 false ++ [true])

/-- A NAL unit from a byte boundary: start code, payload, trailing bits (R180). -/
def unitSegments (epb : Bool) (payload : Bits) : List Segment :=
  [startSegment, (epb, payload ++ stopAndZeros payload.length)]

/-- The whole header sequence of R180. -/
def frameSegments (epb : Bool) (cfg : Config) (f : Bool) (mbW mbH : Nat) : List Segment :=
  unitSegments epb (tableBits (audTable cfg))
    ++ (if f then unitSegments epb (tableBits (spsTable cfg mbW mbH)) ++ unitSegments epb (tableBits (ppsTable cfg))
        else [])
    ++ [startSegment, (epb, tableBits (sliceTable cfg))]

/-- What a command emits from a state where its checks pass. -/
def State.segments (s : State) : Instr → List Segment
  | .putBits n => [(!s.epbDis, lowBits s.data n)]
  | .putUe => [(!s.epbDis, ueCode s.data.toNat)]
  | .putSe => [(!s.epbDis, ueCode (zigzag s.data.toInt))]
  | .putStartCode => [startSegment]
  | .putTrailing => [(!s.epbDis, stopAndZeros (8 * s.acc.nbytes + s.acc.pending.length))]
  | .putAud => [(!s.epbDis, tableBits (audTable s.cfg))]
  | .putSps => [(!s.epbDis, tableBits (spsTable s.cfg (s.data.toNat % 65536) (s.data.toNat / 65536)))]
  | .putPps => [(!s.epbDis, tableBits (ppsTable s.cfg))]
  | .putSliceHeader => [(!s.epbDis, tableBits (sliceTable s.cfg))]
  | .putFrameHeaders f => frameSegments (!s.epbDis) s.cfg f (s.data.toNat % 65536) (s.data.toNat / 65536)
  | .nop | .vleReset | .geoCompute | .geoClear => []

/-- The operand fault's code, 0 where there is none (R221 codes 2 to 6, R223). -/
def operandFault (cfg : Config) (d : Word) : Instr → BitVec 4
  | .putBits n => if cfg.bitsMaxN < n then 2 else 0
  | .putUe => if d.toNat = 2 ^ 32 - 1 ∨ cfg.ueMaxCodeBits < (ueCode d.toNat).length then 3 else 0
  | .putSe =>
    if d.toInt < -(2 ^ 30 - 1) ∨ 2 ^ 30 < d.toInt ∨ cfg.ueMaxCodeBits < (ueCode (zigzag d.toInt)).length then 4 else 0
  | .putSps => if d.toNat % 65536 = 0 ∨ d.toNat / 65536 = 0 then 5 else 0
  | .putFrameHeaders f => if f = true ∧ (d.toNat % 65536 = 0 ∨ d.toNat / 65536 = 0) then 5 else 0
  | .geoCompute =>
    if d.toNat % 65536 < cfg.wMin ∨ cfg.wMax < d.toNat % 65536 ∨ d.toNat / 65536 < cfg.hMin
      ∨ cfg.hMax < d.toNat / 65536 then 6 else 0
  | .nop | .putStartCode | .putTrailing | .putAud | .putPps | .putSliceHeader | .vleReset | .geoClear => 0

/-- The commands that need a byte boundary (R224). -/
def needsBoundary : Instr → Bool
  | .putStartCode | .putFrameHeaders _ => true
  | .nop | .putBits _ | .putUe | .putSe | .putTrailing | .putAud | .putSps | .putPps | .putSliceHeader | .vleReset
  | .geoCompute | .geoClear => false

/-! ## Decoding the codes -/

/-- Reads an Exp-Golomb code: count the leading zeros k, read the next k + 1 bits as x, return x - 1 (R133). -/
def ueDecode (s : Bits) : Option (Nat × Bits) :=
  let k := (s.takeWhile (· == false)).length
  if (s.drop k).length < k + 1 then none
  else some (((s.drop k).take (k + 1)).foldl (fun n b => 2 * n + b.toNat) 0 - 1, (s.drop k).drop (k + 1))

/-- Reads a signed code: (c + 1) / 2 if c is odd, -(c / 2) if c is even (R138). -/
def seDecode (s : Bits) : Option (Int × Bits) :=
  (ueDecode s).map fun (c, rest) => (if c % 2 = 1 then ((c + 1) / 2 : Int) else -((c / 2 : Nat) : Int), rest)

/-! ## Runs -/

/-- Runs commands one after another, each on the state the one before left. -/
def execAll : List Instr → State → Option State
  | [], s => some s
  | i :: rest, s =>
    match exec i s with
    | .next t => execAll rest t
    | .fault _ => none
    | .refused _ => none

/-- The observation at the end of a run (R278). -/
structure Observation where
  bytes : List (Option Byte)
  pending : Bits
  vleLen : Word
  status : Word
  faultCmd : Word
  geo : GeoRegs
deriving DecidableEq, Repr

/-- What R278 observes of a state. -/
def State.observe (s : State) : Observation where
  bytes := (List.range s.acc.nbytes).map fun k => Memory.read s.mem (s.outStart.toNat + k)
  pending := s.acc.pending
  vleLen := Machine.vleLen s
  status := statusWord s
  faultCmd := s.faultCmd
  geo := s.geo

/-- A run whose result counts (R278): STATUS.FAULT = 0 at its end. -/
def State.successful (s : State) : Bool := !s.fault

/-- The states a run reaches: any finite number of steps from reset, under any parameters and any host (R278). -/
def Reachable (t : State) : Prop :=
  ∃ cfg inputs n, Sys2Proof.core.run n { State.reset with cfg := cfg, inputs := inputs } = .next t

end Sys2Proof.Machine
end

