-- ==== Sys2Proof/Certificates/Slice0/Obligations.lean ====
section
/-! DEFINITION. The statements about the HCB that the provers settle, each from the numbered rules it cites. -/

open Sys2Proof Sys2Proof.Machine

/-! ## Encoding -/

/-- R112's worked encodings, and what its illegal words record. -/
def Obligations.WorkedEncodings : Prop :=
  encode (.putBits 8) = 0x00000801 ∧ encode (.putBits 32) = 0x00002001 ∧ encode (.putBits 0) = 0x00000001
  ∧ encode (.putFrameHeaders true) = 0x0001000A ∧ encode (.putFrameHeaders false) = 0x0000000A
  ∧ decode 0x00000801 = .ok (.putBits 8) ∧ decode 0x00002001 = .ok (.putBits 32) ∧ decode 0x00000001 = .ok (.putBits 0)
  ∧ decode 0x0001000A = .ok (.putFrameHeaders true) ∧ decode 0x0000000A = .ok (.putFrameHeaders false)
  ∧ ∀ s : State, s.cfg.asStated → s.fault = false →
    runWord 0x00002101 s = .next { s with fault := true, faultCode := 2, faultCmd := 0x00002101 }
    ∧ runWord 0x00000102 s = .next { s with fault := true, faultCode := 1, faultCmd := 0x00000102 }
    ∧ runWord 0x00010001 s = .next { s with fault := true, faultCode := 1, faultCmd := 0x00010001 }
    ∧ runWord 0x0000000C s = .next { s with fault := true, faultCode := 1, faultCmd := 0x0000000C }

/-- The words of R103's table written out, one per family, decode to their commands. -/
def Obligations.TableWordsDecode : Prop :=
  decode 0x00000000 = .ok .nop ∧ decode 0x00000002 = .ok .putUe ∧ decode 0x00000003 = .ok .putSe
  ∧ decode 0x00000004 = .ok .putStartCode ∧ decode 0x00000005 = .ok .putTrailing ∧ decode 0x00000006 = .ok .putAud
  ∧ decode 0x00000007 = .ok .putSps ∧ decode 0x00000008 = .ok .putPps ∧ decode 0x00000009 = .ok .putSliceHeader
  ∧ decode 0x0000000B = .ok .vleReset ∧ decode 0x00000010 = .ok .geoCompute ∧ decode 0x00000011 = .ok .geoClear
  ∧ decode 0x00003F01 = .ok (.putBits 63)

/-- Decoding an encoded command gives it back, with every operand at every value its field admits. -/
def Obligations.DecodeOfEncode : Prop :=
  ∀ i : Instr, i.wellFormed = true → decode (encode i) = .ok i

/-- A word that decodes is the word of its command: decoding drops no bit, so FAULT_CMD can take the command's full
word from the command. -/
def Obligations.EncodeOfDecode : Prop :=
  ∀ (w : Word) (i : Instr), decode w = .ok i → i.wellFormed = true ∧ encode i = w

/-- R104: at most one row of the opcode table matches any word. -/
def Obligations.OneRowMatchesAWord : Prop :=
  ∀ w : Word, opcodeRows.Pairwise (fun r q => ¬(w &&& r.mask = r.pattern ∧ w &&& q.mask = q.pattern))

/-- R105: a word with a reserved opcode is illegal whatever its other bits, and raises ILLEGAL_CMD. -/
def Obligations.ReservedOpcodesAreIllegal : Prop :=
  ∀ (s : State) (w : Word), s.fault = false →
    (0x0C ≤ w.toNat % 256 ∧ w.toNat % 256 ≤ 0x0F) ∨ (0x12 ≤ w.toNat % 256 ∧ w.toNat % 256 ≤ 0xFF) →
    decode w = .error .reservedOpcode
    ∧ runWord w s = .next { s with fault := true, faultCode := 1, faultCmd := w }

/-- R106: an assigned opcode with a bit set outside its row's free fields (N for PUT_BITS, F for PUT_FRAME_HEADERS, none
for the others) is illegal and raises ILLEGAL_CMD. -/
def Obligations.ReservedFieldsAreIllegal : Prop :=
  ∀ (s : State) (w : Word), s.fault = false →
    (w.toNat % 256 ≤ 0x0B ∨ w.toNat % 256 = 0x10 ∨ w.toNat % 256 = 0x11) →
    w &&& (if w.toNat % 256 = 0x01 then 0xFFFFC000 else if w.toNat % 256 = 0x0A then 0xFFFEFF00 else 0xFFFFFF00) ≠ 0 →
    decode w = .error .reservedField
    ∧ runWord w s = .next { s with fault := true, faultCode := 1, faultCmd := w }

/-! ## The step and the register window -/

/-- A CMD write at the head of the host's accesses runs exactly its command, on the state without that access; a word
with no command raises ILLEGAL_CMD, unless a fault is pending. -/
def Obligations.StepRunsTheDecodedCommand : Prop :=
  ∀ (s : State) (w : Word) (rest : List HostAccess), s.cfg.asStated → s.inputs = .regWrite 0x00 4 w :: rest →
    (∀ i, decode w = .ok i → step s = exec i { s with inputs := rest })
    ∧ (∀ e, decode w = .error e → s.fault = false →
        step s = .next { s with inputs := rest, fault := true, faultCode := 1, faultCmd := w })

/-- R252: with no access pending the HCB waits. -/
def Obligations.MachineWaitsForAccesses : Prop :=
  ∀ s : State, s.inputs = [] → step s = .next s

/-- The only register access defined is a 32-bit access at a 4-byte-aligned offset inside the window, and the model
refuses any other and none of that form. R51 asks the refusal of the narrower, wider and misaligned ones; that an offset
outside the window is refused too (from R51 and U4, log entry 12) and that every access of the defined form completes are
the model's. -/
def Obligations.UndefinedAccessesAreRefused : Prop :=
  ∀ (s : State) (offset bytes : Nat) (v : Word) (rest : List HostAccess),
    ((bytes ≠ 4 ∨ offset % 4 ≠ 0 ∨ s.cfg.regWindowSize ≤ offset) →
      (s.inputs = .regWrite offset bytes v :: rest → ∃ r, step s = .refused r)
      ∧ (s.inputs = .regRead offset bytes :: rest → ∃ r, step s = .refused r))
    ∧ (bytes = 4 → offset % 4 = 0 → offset < s.cfg.regWindowSize →
      (s.inputs = .regWrite offset bytes v :: rest → ∃ t, step s = .next t)
      ∧ (s.inputs = .regRead offset bytes :: rest → ∃ t, step s = .next t))

/-- The register map's reads: each assigned offset gives its register, and the read changes nothing but what the host
has been given (R31, R32, R35 to R48, R80). -/
def Obligations.RegisterReads : Prop :=
  ∀ (s : State) (offset : Nat) (v : Word) (rest : List HostAccess), s.cfg.asStated →
    (offset, v) ∈ ([(0x00, 0), (0x04, s.data), (0x10, s.outStart), (0x14, s.outEnd), (0x1C, s.faultCmd),
      (0x20, s.geo.src), (0x24, s.geo.mb), (0x28, s.geo.tile), (0x2C, s.geo.tile2), (0x30, s.geo.planeSize),
      (0x34, s.geo.inputSize), (0x38, s.geo.reconSize), (0x3C, s.geo.smallLumaSize), (0x40, s.geo.chromaOffset),
      (0x44, s.geo.reconChromaOffset), (0x48, 0x00100000), (0x4C, 0x00001000)] : List (Nat × Word)) →
    s.inputs = .regRead offset 4 :: rest →
    step s = .next { s with inputs := rest, reply := .reg v }

/-- The fields of STATUS and CTRL as a read gives them (R36, R39), with no side effect (R80). Nothing is claimed of the
reserved bits (93_implementation_defined.md U8). -/
def Obligations.StatusAndCtrlReads : Prop :=
  ∀ (s : State) (rest : List HostAccess), s.cfg.asStated →
    (s.inputs = .regRead 0x18 4 :: rest →
      ∃ v : Word, step s = .next { s with inputs := rest, reply := .reg v }
        ∧ v.getLsbD 0 = s.fault ∧ v.getLsbD 1 = s.geoValid ∧ v.extractLsb' 8 4 = s.faultCode)
    ∧ (s.inputs = .regRead 0x0C 4 :: rest →
      ∃ v : Word, step s = .next { s with inputs := rest, reply := .reg v } ∧ v.getLsbD 0 = s.epbDis)

/-- VLE_LEN under both settings of EPB_IN_LEN, and that a read of it changes no state (R35, R80). -/
def Obligations.VleLenRead : Prop :=
  ∀ (s : State) (rest : List HostAccess), s.cfg.asStated → s.Inv → s.inputs = .regRead 0x08 4 :: rest →
    ∃ v : Word, step s = .next { s with inputs := rest, reply := .reg v }
      ∧ (s.cfg.epbInLen = true → v.toNat = (8 * s.acc.nbytes + s.acc.pending.length) % 2 ^ 32)
      ∧ (s.cfg.epbInLen = false →
          v.toNat = (8 * (s.acc.nbytes - s.acc.nepb) + s.acc.pending.length) % 2 ^ 32)

/-- Host writes: DATA, CTRL, OUT_START and OUT_END take the value (R33, R36 to R38, R212 to R214); the read-only
registers ignore it and raise nothing (R50). Each holds whether or not a fault is pending (R215). -/
def Obligations.RegisterWrites : Prop :=
  ∀ (s : State) (offset : Nat) (v : Word) (rest : List HostAccess), s.cfg.asStated →
    s.inputs = .regWrite offset 4 v :: rest →
    (offset = 0x04 → step s = .next { s with inputs := rest, data := v })
    ∧ (offset = 0x0C → step s = .next { s with inputs := rest, epbDis := v.getLsbD 0 })
    ∧ (offset = 0x10 → step s = .next { s with inputs := rest, outStart := v })
    ∧ (offset = 0x14 → step s = .next { s with inputs := rest, outEnd := v })
    ∧ (offset ∈ [0x08, 0x1C, 0x20, 0x24, 0x28, 0x2C, 0x30, 0x34, 0x38, 0x3C, 0x40, 0x44, 0x48, 0x4C] →
        step s = .next { s with inputs := rest })

/-! ## Faults -/

/-- R230: a write of 1 to STATUS bit 0 clears the three fault fields and nothing else, a write with bit 0 = 0 does
nothing, and the reset event also clears the fault. -/
def Obligations.FaultClear : Prop :=
  ∀ (s : State) (v : Word) (rest : List HostAccess), s.cfg.asStated →
    (s.inputs = .regWrite 0x18 4 v :: rest → v.getLsbD 0 = true →
      step s = .next { s with inputs := rest, fault := false, faultCode := 0, faultCmd := 0 })
    ∧ (s.inputs = .regWrite 0x18 4 v :: rest → v.getLsbD 0 = false → step s = .next { s with inputs := rest })
    ∧ (s.inputs = .openEngine :: rest →
      ∃ t, step s = .next t ∧ t.fault = false ∧ t.faultCode = 0 ∧ t.faultCmd = 0)

/-- R229: while STATUS.FAULT = 1 every CMD write is ignored, whatever its word; every other register write and every read
acts as it does otherwise. -/
def Obligations.FaultIsSticky : Prop :=
  ∀ (s : State) (offset : Nat) (v : Word) (rest : List HostAccess), s.cfg.asStated → s.fault = true →
    (∀ i, exec i s = .next s)
    ∧ (s.inputs = .regWrite 0x00 4 v :: rest → step s = .next { s with inputs := rest })
    ∧ (offset % 4 = 0 → 0 < offset → offset < 0x100 → s.inputs = .regWrite offset 4 v :: rest →
        step s = .next (writeReg offset v { s with inputs := rest }))
    ∧ (offset % 4 = 0 → offset < 0x100 → s.inputs = .regRead offset 4 :: rest →
        step s = .next { s with inputs := rest, reply := .reg (readReg offset s) })

/-- R215, R231: the only ways out of the fault state are a host write of 1 to STATUS bit 0 and the reset event, and a
fault that stays keeps its code and its command word. -/
def Obligations.FaultEndsOnlyByClear : Prop :=
  ∀ s t : State, s.fault = true → step s = .next t →
    (t.fault = false →
      ∃ rest, (∃ v : Word, s.inputs = .regWrite 0x18 4 v :: rest ∧ v.getLsbD 0 = true) ∨ s.inputs = .openEngine :: rest)
    ∧ (t.fault = true → t.faultCode = s.faultCode ∧ t.faultCmd = s.faultCmd)

/-- R233: faults are precise. The state after a faulting command equals the state before it except for the three fault
fields, which take a code of R221 and the full command word; it is reported by that very command. -/
def Obligations.FaultsArePrecise : Prop :=
  ∀ (w : Word) (s t : State), s.fault = false → runWord w s = .next t → t.fault = true →
    t = { s with fault := true, faultCode := t.faultCode, faultCmd := w }
    ∧ 1 ≤ t.faultCode.toNat ∧ t.faultCode.toNat ≤ 8

/-- R227: the checks run in the order FAULT, ILLEGAL_CMD, operand fault, UNALIGNED_START, OVERFLOW, and the first that
fails is the only one reported; where none fails no fault is. -/
def Obligations.FaultPriority : Prop :=
  ∀ (w : Word) (s : State), s.Inv →
    (s.fault = true → runWord w s = .next s)
    ∧ (s.fault = false → ∀ e, decode w = .error e →
        runWord w s = .next { s with fault := true, faultCode := 1, faultCmd := w })
    ∧ (s.fault = false → ∀ i, decode w = .ok i →
        ((operandFault s.cfg s.data i ≠ 0 →
          runWord w s = .next { s with fault := true, faultCode := operandFault s.cfg s.data i, faultCmd := w })
        ∧ (operandFault s.cfg s.data i = 0 → needsBoundary i = true → s.acc.pending ≠ [] →
          runWord w s = .next { s with fault := true, faultCode := 7, faultCmd := w })
        ∧ (operandFault s.cfg s.data i = 0 → (needsBoundary i = true → s.acc.pending = []) →
            ¬s.fits (s.segments i) → runWord w s = .next { s with fault := true, faultCode := 8, faultCmd := w })
        ∧ (operandFault s.cfg s.data i = 0 → (needsBoundary i = true → s.acc.pending = []) →
            s.fits (s.segments i) → ∃ t, runWord w s = .next t ∧ t.fault = false)))

/-- R223: an operand fault depends on the command word and DATA only (and the parameters): two states that agree on
them fault alike, whatever their accumulators and memories. -/
def Obligations.OperandFaultsReadOnlyTheOperand : Prop :=
  ∀ (i : Instr) (s s' t t' : State), s.fault = false → s'.fault = false → s.cfg = s'.cfg → s.data = s'.data →
    exec i s = .next t → exec i s' = .next t' →
    ∀ c : BitVec 4, 2 ≤ c.toNat → c.toNat ≤ 6 → (t.faultCode = c ∧ t.fault = true ↔ t'.faultCode = c ∧ t'.fault = true)

/-! ## The Exp-Golomb codes -/

/-- R133, with R132's two forms of the code: its length is odd and given by v's range, it starts with exactly
floor_log2(v + 1) zeros and a 1, no code is a prefix of another, decoding recovers v and the bits after the code, and the
values the source gives. -/
def Obligations.UeCodeProperties : Prop :=
  (∀ v, ueCode v = List.replicate (v + 1).log2 false ++ bin (v + 1) ((v + 1).log2 + 1))
  ∧ (∀ v, (ueCode v).length = 2 * (v + 1).log2 + 1)
  ∧ (∀ v v', ueCode v <+: ueCode v' → v = v')
  ∧ (∀ v, ∃ tail, ueCode v = List.replicate (v + 1).log2 false ++ true :: tail)
  ∧ (∀ v rest, ueDecode (ueCode v ++ rest) = some (v, rest))
  ∧ (ueCode 0 = [true] ∧ ueCode 1 = [false, true, false] ∧ ueCode 2 = [false, true, true])
  ∧ (∀ k v, 2 ^ k - 1 ≤ v → v ≤ 2 ^ (k + 1) - 2 → (ueCode v).length = 2 * k + 1)

/-- R136: on the SE domain the 32-bit formula is the zig-zag map, 2v - 1 for v > 0 and -2v for v <= 0. -/
def Obligations.SeMapIsZigzag : Prop :=
  ∀ v : Word, -(2 ^ 30 - 1) ≤ v.toInt → v.toInt ≤ 2 ^ 30 →
    ((seMap v).toNat : Int) = if 0 < v.toInt then 2 * v.toInt - 1 else -2 * v.toInt

/-- R138: the signed code, and that decoding it recovers v exactly, for every v of the SE domain. -/
def Obligations.SeCodeRoundTrip : Prop :=
  (∀ v : Word, seCode v = ueCode (seMap v).toNat)
  ∧ (∀ (v : Word) (rest : Bits), -(2 ^ 30 - 1) ≤ v.toInt → v.toInt ≤ 2 ^ 30 →
    seDecode (seCode v ++ rest) = some (v.toInt, rest))
  ∧ seCode 0 = [true] ∧ seCode 1 = [false, true, false]

/-! ## Commands that emit bits: result, faults and frame -/

/-- R131. Beside the result and the two faults: N = 0 changes no state. -/
def Obligations.PutBitsAppendsLowBits : Prop :=
  ∀ (s : State) (n : Nat), s.cfg.asStated → s.Inv → s.fault = false → n ≤ 63 →
    let word : Word := BitVec.ofNat 32 (256 * n + 0x01)
    decode word = .ok (.putBits n)
    ∧ (n ≤ 32 → s.fits [(!s.epbDis, lowBits s.data n)] →
        ∃ t, exec (.putBits n) s = .next t ∧ s.Emits [(!s.epbDis, lowBits s.data n)] t)
    ∧ (n = 0 → exec (.putBits n) s = .next s)
    ∧ (32 < n → exec (.putBits n) s
        = .next { s with fault := true, faultCode := 2, faultCmd := word })
    ∧ (n ≤ 32 → ¬s.fits [(!s.epbDis, lowBits s.data n)] → exec (.putBits n) s
        = .next { s with fault := true, faultCode := 8, faultCmd := word })

/-- R135, with R134's domain. -/
def Obligations.PutUeAppendsTheCode : Prop :=
  ∀ s : State, s.Inv → s.fault = false →
    (s.data ≠ 0xFFFFFFFF → (ueCode s.data.toNat).length ≤ s.cfg.ueMaxCodeBits →
      s.fits [(!s.epbDis, ueCode s.data.toNat)] →
        ∃ t, exec .putUe s = .next t ∧ s.Emits [(!s.epbDis, ueCode s.data.toNat)] t)
    ∧ (s.data = 0xFFFFFFFF ∨ s.cfg.ueMaxCodeBits < (ueCode s.data.toNat).length →
      exec .putUe s = .next { s with fault := true, faultCode := 3, faultCmd := 0x00000002 })
    ∧ (s.data ≠ 0xFFFFFFFF → (ueCode s.data.toNat).length ≤ s.cfg.ueMaxCodeBits →
      ¬s.fits [(!s.epbDis, ueCode s.data.toNat)] →
        exec .putUe s = .next { s with fault := true, faultCode := 8, faultCmd := 0x00000002 })

/-- R139, with the zig-zag map for R136's formula and R137's domain. PUT_SE never raises UE_RANGE. -/
def Obligations.PutSeAppendsTheCode : Prop :=
  ∀ s : State, s.Inv → s.fault = false →
    (-(2 ^ 30 - 1) ≤ s.data.toInt → s.data.toInt ≤ 2 ^ 30 →
      (ueCode (zigzag s.data.toInt)).length ≤ s.cfg.ueMaxCodeBits →
      (s.fits [(!s.epbDis, ueCode (zigzag s.data.toInt))] →
        ∃ t, exec .putSe s = .next t ∧ s.Emits [(!s.epbDis, ueCode (zigzag s.data.toInt))] t)
      ∧ (¬s.fits [(!s.epbDis, ueCode (zigzag s.data.toInt))] →
        exec .putSe s = .next { s with fault := true, faultCode := 8, faultCmd := 0x00000003 }))
    ∧ (s.data.toInt < -(2 ^ 30 - 1) ∨ 2 ^ 30 < s.data.toInt
        ∨ s.cfg.ueMaxCodeBits < (ueCode (zigzag s.data.toInt)).length →
      exec .putSe s = .next { s with fault := true, faultCode := 4, faultCmd := 0x00000003 })

/-- R151: from a byte boundary the four bytes 00 00 00 01 are written raw, whatever CTRL and the bytes before hold;
off it UNALIGNED_START; ZRUN is 0 afterwards. -/
def Obligations.PutStartCodeWritesItRaw : Prop :=
  ∀ s : State, s.Inv → s.fault = false →
    (s.acc.pending = [] → s.cursor + 4 ≤ s.outEnd.toNat →
      ∃ t, exec .putStartCode s = .next t ∧ s.Emits [(false, bin 0x00000001 32)] t
        ∧ (s.written [(false, bin 0x00000001 32)]).bytes = [0x00, 0x00, 0x00, 0x01]
        ∧ t.acc.zrun = 0 ∧ t.epbDis = s.epbDis)
    ∧ (s.acc.pending ≠ [] →
      exec .putStartCode s = .next { s with fault := true, faultCode := 7, faultCmd := 0x00000004 })
    ∧ (s.acc.pending = [] → s.outEnd.toNat < s.cursor + 4 →
      exec .putStartCode s = .next { s with fault := true, faultCode := 8, faultCmd := 0x00000004 })

/-- R152: a stop bit and `8 - ((L + 1) mod 8)` zeros, L the accumulator's length in bits. -/
def Obligations.PutTrailingAppendsStopAndZeros : Prop :=
  ∀ s : State, s.Inv → s.fault = false →
    let z := 8 - (8 * s.acc.nbytes + s.acc.pending.length + 1) % 8
    let segs := [(!s.epbDis, true :: List.replicate z false)]
    (s.fits segs → ∃ t, exec .putTrailing s = .next t ∧ s.Emits segs t)
    ∧ (¬s.fits segs → exec .putTrailing s = .next { s with fault := true, faultCode := 8, faultCmd := 0x00000005 })

/-- R153: after PUT_TRAILING the accumulator is at a byte boundary; it appends the stop bit and z zeros, between 2 and 9
bits, 9 exactly when L mod 8 = 7. The byte that holds the stop bit, the last byte written or, for 9 bits, the one before
it, is not zero in memory. -/
def Obligations.TrailingEndsOnAByteBoundary : Prop :=
  ∀ s t : State, s.Inv → s.fault = false → exec .putTrailing s = .next t → t.fault = false →
    let L := 8 * s.acc.nbytes + s.acc.pending.length
    let z := 8 - (L + 1) % 8
    s.Emits [(!s.epbDis, true :: List.replicate z false)] t
    ∧ t.acc.pending = [] ∧ (vleLen t).toNat % 8 = 0
    ∧ 2 ≤ z + 1 ∧ z + 1 ≤ 9 ∧ (z + 1 = 9 ↔ L % 8 = 7)
    ∧ (s.epbDis = true → 8 * t.acc.nbytes = L + (z + 1))
    ∧ ∃ b, Memory.read t.mem (t.cursor - if L % 8 = 7 then 2 else 1) = some b ∧ b ≠ 0
        ∧ (splitBytes (s.acc.pending ++ true :: List.replicate z false)).1.head? = some b

/-- R161, with the AUD of R160. -/
def Obligations.PutAudAppendsTheDelimiter : Prop :=
  ∀ s : State, s.cfg.asStated → s.Inv → s.fault = false →
    tableBits (audTable s.cfg) = bin 0x09 8 ++ [true, true, true]
    ∧ (s.fits [(!s.epbDis, tableBits (audTable s.cfg))] →
      ∃ t, exec .putAud s = .next t ∧ s.Emits [(!s.epbDis, tableBits (audTable s.cfg))] t)
    ∧ (¬s.fits [(!s.epbDis, tableBits (audTable s.cfg))] →
      exec .putAud s = .next { s with fault := true, faultCode := 8, faultCmd := 0x00000006 })

/-- R167, with the table of R165 and the operand check of R166. -/
def Obligations.PutSpsAppendsTheParameterSet : Prop :=
  ∀ s : State, s.Inv → s.fault = false →
    let mbW := s.data.toNat % 65536
    let mbH := s.data.toNat / 65536
    let segs := [(!s.epbDis, tableBits (spsTable s.cfg mbW mbH))]
    (1 ≤ mbW → 1 ≤ mbH →
      (s.fits segs → ∃ t, exec .putSps s = .next t ∧ s.Emits segs t)
      ∧ (¬s.fits segs → exec .putSps s = .next { s with fault := true, faultCode := 8, faultCmd := 0x00000007 }))
    ∧ (mbW = 0 ∨ mbH = 0 → exec .putSps s = .next { s with fault := true, faultCode := 5, faultCmd := 0x00000007 })

/-- R165's length: with the defaults the SPS has 44 + |ue_code(mb_w - 1)| + |ue_code(mb_h - 1)| bits, 60 for 320×240, and
its first four bytes are 67 4D 00 29. -/
def Obligations.SpsLengthAndFirstBytes : Prop :=
  (∀ mbW mbH, (tableBits (spsTable Config.default mbW mbH)).length
    = 44 + (ueCode (mbW - 1)).length + (ueCode (mbH - 1)).length)
  ∧ (tableBits (spsTable Config.default 20 15)).length = 60
  ∧ ∀ mbW mbH, ((splitBytes (tableBits (spsTable Config.default mbW mbH))).1.take 4 = [0x67, 0x4D, 0x00, 0x29])

/-- R171, with the table of R170; with the defaults the unit completes 68 EE 31 and leaves 000100. -/
def Obligations.PutPpsAppendsTheParameterSet : Prop :=
  splitBytes (tableBits (ppsTable Config.default)) = ([0x68, 0xEE, 0x31], [false, false, false, true, false, false])
  ∧ ∀ s : State, s.Inv → s.fault = false →
    (s.fits [(!s.epbDis, tableBits (ppsTable s.cfg))] →
      ∃ t, exec .putPps s = .next t ∧ s.Emits [(!s.epbDis, tableBits (ppsTable s.cfg))] t)
    ∧ (¬s.fits [(!s.epbDis, tableBits (ppsTable s.cfg))] →
      exec .putPps s = .next { s with fault := true, faultCode := 8, faultCmd := 0x00000008 })

/-- R176, with the table of R175; with the defaults the header completes 65 B8 40 11 and leaves 11. -/
def Obligations.PutSliceHeaderAppendsTheHeader : Prop :=
  splitBytes (tableBits (sliceTable Config.default)) = ([0x65, 0xB8, 0x40, 0x11], [true, true])
  ∧ ∀ s : State, s.Inv → s.fault = false →
    (s.fits [(!s.epbDis, tableBits (sliceTable s.cfg))] →
      ∃ t, exec .putSliceHeader s = .next t ∧ s.Emits [(!s.epbDis, tableBits (sliceTable s.cfg))] t)
    ∧ (¬s.fits [(!s.epbDis, tableBits (sliceTable s.cfg))] →
      exec .putSliceHeader s = .next { s with fault := true, faultCode := 8, faultCmd := 0x00000009 })

/-- R180: the frame's header sequence from a byte boundary, its operand check only when F = 1, UNALIGNED_START off a byte
boundary, nothing emitted on a fault. -/
def Obligations.PutFrameHeadersAppendsTheSequence : Prop :=
  ∀ (s : State) (f : Bool), s.Inv → s.fault = false →
    let mbW := s.data.toNat % 65536
    let mbH := s.data.toNat / 65536
    let segs := frameSegments (!s.epbDis) s.cfg f mbW mbH
    let word : Word := if f then 0x0001000A else 0x0000000A
    ((f = true → 1 ≤ mbW ∧ 1 ≤ mbH) → s.acc.pending = [] →
      (s.fits segs → ∃ t, exec (.putFrameHeaders f) s = .next t ∧ s.Emits segs t)
      ∧ (¬s.fits segs →
          exec (.putFrameHeaders f) s = .next { s with fault := true, faultCode := 8, faultCmd := word }))
    ∧ (f = true → mbW = 0 ∨ mbH = 0 →
        exec (.putFrameHeaders f) s = .next { s with fault := true, faultCode := 5, faultCmd := word })
    ∧ ((f = true → 1 ≤ mbW ∧ 1 ≤ mbH) → s.acc.pending ≠ [] →
        exec (.putFrameHeaders f) s = .next { s with fault := true, faultCode := 7, faultCmd := word })

/-- R180: a host that issues the primitive commands one by one gets the same result when no fault occurs, and conversely
wherever the composite command does not fault. -/
def Obligations.FrameHeadersEqualThePrimitives : Prop :=
  ∀ (f : Bool) (s t : State), s.acc.pending.length ≤ 7 → s.fault = false → t.fault = false →
    (execAll ([.putStartCode, .putAud, .putTrailing]
        ++ (if f then [.putStartCode, .putSps, .putTrailing, .putStartCode, .putPps, .putTrailing] else [])
        ++ [.putStartCode, .putSliceHeader]) s = some t
      ↔ exec (.putFrameHeaders f) s = .next t)

/-- No start code is emulated (R73; R268 for the engine): with insertion on, take a command other than the start-code
ones, or an engine run. Of the bytes it wrote to memory, from the cursor on and below OUT_END, no three in a row are
00 00 and a byte below 3; and with two zero bytes before them (or one, and its first byte zero) the next byte is at least
3. That a slice which does not fit writes the bytes that do, NBYTES counting all, and that the engine appends under a
pending fault too, are the model's choices (log entries 8 and 9). -/
def Obligations.NoStartCodeIsEmulated : Prop :=
  ∀ s t : State, s.Inv → s.epbDis = false →
    ((∃ i, i ≠ .putStartCode ∧ (∀ f, i ≠ .putFrameHeaders f) ∧ exec i s = .next t ∧ t.fault = false)
      ∨ ∃ slice wait rest, s.inputs = .engineRun slice wait :: rest ∧ step s = .next t) →
    let written (k : Nat) (b : Byte) : Prop :=
      s.acc.nbytes + k < t.acc.nbytes ∧ s.cursor + k < s.outEnd.toNat ∧ Memory.read t.mem (s.cursor + k) = some b
    (∀ (k : Nat) (b : Byte), written k 0 → written (k + 1) 0 → written (k + 2) b → 3 ≤ b.toNat)
    ∧ (s.acc.zrun = 2 → ∀ b : Byte, written 0 b → 3 ≤ b.toNat)
    ∧ (1 ≤ s.acc.zrun → ∀ b : Byte, written 0 0 → written 1 b → 3 ≤ b.toNat)

/-! ## Commands that emit none -/

/-- R210: the word 0 is NOP; it changes nothing, whether or not a fault is pending, so writing 0 to CMD leaves every
register as it was; a word with opcode 0 and any other bit set raises ILLEGAL_CMD. -/
def Obligations.NopChangesNothing : Prop :=
  encode .nop = 0x00000000 ∧ decode 0x00000000 = .ok .nop
  ∧ (∀ s : State, exec .nop s = .next s)
  ∧ (∀ (s : State) (rest : List HostAccess), s.cfg.asStated → s.inputs = .regWrite 0x00 4 0 :: rest →
      step s = .next { s with inputs := rest })
  ∧ ∀ (s : State) (w : Word), s.fault = false → w.toNat % 256 = 0 → w ≠ 0 →
      runWord w s = .next { s with fault := true, faultCode := 1, faultCmd := w }

/-- R211: VLE_RESET empties the accumulator and changes nothing else; memory, CTRL, OUT_START, OUT_END, DATA and the
geometry keep their values, and VLE_LEN reads 0. -/
def Obligations.VleResetEmptiesTheAccumulator : Prop :=
  ∀ s : State, s.fault = false →
    ∃ t, exec .vleReset s = .next t ∧ t.acc.nbytes = 0 ∧ t.acc.pending = [] ∧ t.acc.zrun = 0 ∧ t.acc.nepb = 0
      ∧ vleLen t = 0 ∧ t = { s with acc := t.acc }

/-- R194: GEO_COMPUTE latches the geometry of R192 and R193, both settings of HALF_DIM_ROUND, or raises GEO_RANGE with
the geometry unchanged; it reads DATA and writes neither the accumulator nor memory. -/
def Obligations.GeoComputeLatchesTheGeometry : Prop :=
  ∀ s : State, s.cfg.asStated → s.fault = false →
    let w := s.data.toNat % 65536
    let h := s.data.toNat / 65536
    let up (a m : Nat) : Nat := m * ((a + m - 1) / m)
    let half (a : Nat) : Nat := if s.cfg.halfDimRound = .floor then a / 2 else (a + 1) / 2
    let plane := (up w 16) * (up h 16)
    (16 ≤ w → w ≤ 1920 → 16 ≤ h → h ≤ 1080 →
      ∃ t, exec .geoCompute s = .next t ∧ t = { s with geo := t.geo, geoValid := true }
        ∧ t.geo.src.toNat = h * 65536 + w
        ∧ t.geo.mb.toNat = (h + 15) / 16 * 65536 + (w + 15) / 16
        ∧ t.geo.tile.toNat = up h 32 * 65536 + up w 32
        ∧ t.geo.tile2.toNat = up (half h) 32 * 65536 + up (half w) 32
        ∧ t.geo.planeSize.toNat = plane
        ∧ t.geo.inputSize.toNat = plane * 3 / 2
        ∧ t.geo.reconSize.toNat = up w 32 * up h 32 + up w 32 * up (half h) 32
        ∧ t.geo.smallLumaSize.toNat = up (half w) 32 * up (half h) 32
        ∧ t.geo.chromaOffset.toNat = plane
        ∧ t.geo.reconChromaOffset.toNat = up w 32 * up h 32)
    ∧ (w < 16 ∨ 1920 < w ∨ h < 16 ∨ 1080 < h →
      exec .geoCompute s = .next { s with fault := true, faultCode := 6, faultCmd := 0x00000010 })

/-- R196: the relations among the geometry registers after a successful GEO_COMPUTE, and that they all read 0 whenever
GEO_VALID = 0 in a state of the invariant. -/
def Obligations.GeometryRelations : Prop :=
  (∀ s t : State, s.cfg.asStated → s.fault = false → exec .geoCompute s = .next t → t.fault = false →
    let w := s.data.toNat % 65536
    let h := s.data.toNat / 65536
    let mbW := t.geo.mb.toNat % 65536
    let mbH := t.geo.mb.toNat / 65536
    let tileW := t.geo.tile.toNat % 65536
    let tileH := t.geo.tile.toNat / 65536
    let tileW2 := t.geo.tile2.toNat % 65536
    let tileH2 := t.geo.tile2.toNat / 65536
    tileW % 32 = 0 ∧ tileH % 32 = 0 ∧ tileW2 % 32 = 0 ∧ tileH2 % 32 = 0
    ∧ mbW = (w + 15) / 16 ∧ mbH = (h + 15) / 16
    ∧ w ≤ 16 * mbW ∧ 16 * mbW ≤ tileW ∧ 16 * mbW - w ≤ 15 ∧ tileW - w ≤ 31
    ∧ h ≤ 16 * mbH ∧ 16 * mbH ≤ tileH ∧ 16 * mbH - h ≤ 15 ∧ tileH - h ≤ 31
    ∧ t.geo.planeSize.toNat ≤ tileW * tileH
    ∧ t.geo.inputSize.toNat = t.geo.chromaOffset.toNat + t.geo.planeSize.toNat / 2
    ∧ t.geo.reconSize.toNat = t.geo.reconChromaOffset.toNat + tileW * tileH2
    ∧ tileW2 ≤ tileW ∧ tileH2 ≤ tileH)
  ∧ ∀ s : State, s.Inv → s.geoValid = false →
    s.geo.src = 0 ∧ s.geo.mb = 0 ∧ s.geo.tile = 0 ∧ s.geo.tile2 = 0 ∧ s.geo.planeSize = 0 ∧ s.geo.inputSize = 0
    ∧ s.geo.reconSize = 0 ∧ s.geo.smallLumaSize = 0 ∧ s.geo.chromaOffset = 0 ∧ s.geo.reconChromaOffset = 0

/-- R197: the ranges of the geometry over the whole domain, for both settings of HALF_DIM_ROUND: every dimension fits its
16-bit field and every size 32 bits. -/
def Obligations.GeometryRanges : Prop :=
  ∀ (c : Config) (w h : Nat), c.asStated → 16 ≤ w → w ≤ 1920 → 16 ≤ h → h ≤ 1080 →
    (1 ≤ mbDim c w ∧ mbDim c w ≤ 120) ∧ (1 ≤ mbDim c h ∧ mbDim c h ≤ 68)
    ∧ (32 ≤ tileDim c w ∧ tileDim c w ≤ 1920) ∧ (32 ≤ tileDim c h ∧ tileDim c h ≤ 1088)
    ∧ (32 ≤ tile2Dim c w ∧ tile2Dim c w ≤ 960) ∧ (32 ≤ tile2Dim c h ∧ tile2Dim c h ≤ 544)
    ∧ (256 ≤ planeSize c w h ∧ planeSize c w h ≤ 2088960) ∧ (384 ≤ inputSize c w h ∧ inputSize c w h ≤ 3133440)
    ∧ (2048 ≤ reconSize c w h ∧ reconSize c w h ≤ 3133440)
    ∧ (1024 ≤ smallLumaSize c w h ∧ smallLumaSize c w h ≤ 522240)

/-- R195: GEO_CLEAR zeroes the ten geometry registers and GEO_VALID and changes nothing else; the two constants keep
their values; on a geometry already clear it changes nothing. -/
def Obligations.GeoClearZeroesTheGeometry : Prop :=
  ∀ s : State, s.cfg.asStated → s.fault = false →
    (∃ t, exec .geoClear s = .next t ∧ t = { s with geo := t.geo, geoValid := false }
      ∧ t.geo.src = 0 ∧ t.geo.mb = 0 ∧ t.geo.tile = 0 ∧ t.geo.tile2 = 0 ∧ t.geo.planeSize = 0 ∧ t.geo.inputSize = 0
      ∧ t.geo.reconSize = 0 ∧ t.geo.smallLumaSize = 0 ∧ t.geo.chromaOffset = 0 ∧ t.geo.reconChromaOffset = 0
      ∧ readReg 0x48 t = 0x00100000 ∧ readReg 0x4C t = 0x00001000)
    ∧ (s.Inv → s.geoValid = false → exec .geoClear s = .next s)

/-! ## Rules of the whole machine -/

/-- The frame of every command (R52, R190): no command changes DATA, CTRL, OUT_START, OUT_END, the parameters, the
host's accesses, what the host was last given, or the count of free values; and none but GEO_COMPUTE and GEO_CLEAR
changes the geometry. -/
def Obligations.CommandFrame : Prop :=
  ∀ (i : Instr) (s t : State), exec i s = .next t →
    t.data = s.data ∧ t.epbDis = s.epbDis ∧ t.outStart = s.outStart ∧ t.outEnd = s.outEnd ∧ t.cfg = s.cfg
    ∧ t.inputs = s.inputs ∧ t.reply = s.reply ∧ t.freeCount = s.freeCount
    ∧ (i ≠ .geoCompute → i ≠ .geoClear → t.geo = s.geo ∧ t.geoValid = s.geoValid)

/-- R190: the only accesses that change a geometry register or GEO_VALID are the CMD writes of GEO_COMPUTE and GEO_CLEAR
and the reset event. -/
def Obligations.GeometryHasTwoWriters : Prop :=
  ∀ s t : State, step s = .next t → t.geo ≠ s.geo ∨ t.geoValid ≠ s.geoValid →
    ∃ rest, s.inputs = .regWrite 0x00 4 0x00000010 :: rest ∨ s.inputs = .regWrite 0x00 4 0x00000011 :: rest
      ∨ s.inputs = .openEngine :: rest

/-- R89, for every step of the machine, the engine's included: no byte outside [OUT_START, OUT_END) changes, and no byte
below the cursor, so the bytes already written in the stream stay. -/
def Obligations.WritesStayInTheBuffer : Prop :=
  ∀ (s t : State) (a : Nat), s.acc.pending.length ≤ 7 → step s = .next t →
    (a < s.outStart.toNat ∨ s.outEnd.toNat ≤ a ∨ a < s.cursor) → Memory.read t.mem a = Memory.read s.mem a

/-- R88: no command reads memory. Two states that differ in memory alone are alike after any command, and every byte
the command leaves different is one it wrote in neither or both. -/
def Obligations.CommandsDoNotReadMemory : Prop :=
  ∀ (i : Instr) (s t : State) (m : Memory), s.acc.pending.length ≤ 7 → exec i s = .next t →
    ∃ m', exec i { s with mem := m } = .next { t with mem := m' }
      ∧ ∀ a, Memory.read m' a = Memory.read t.mem a
          ∨ (Memory.read m' a = Memory.read m a ∧ Memory.read t.mem a = Memory.read s.mem a)

/-- R268: EngineRun appends its bit string with the CTRL and OUT_* in force and changes nothing else of the HCB. That it
does so under a pending fault too, and that a completion at exactly the ENGINE_TIMEOUT of R274 is in time, are the model's
choices (log entries 9 and 10). -/
def Obligations.EngineRunAppendsTheSlice : Prop :=
  ∀ (s : State) (slice : Bits) (n : Nat) (rest : List HostAccess), s.Inv →
    s.inputs = .engineRun slice (some n) :: rest → (∀ limit, s.cfg.engineTimeout = some limit → n ≤ limit) →
    s.fits [(!s.epbDis, slice)] →
    ∃ t, step s = .next t ∧ { s with inputs := rest }.Emits [(!s.epbDis, slice)] t

/-- R274: a completion that never comes, or comes after ENGINE_TIMEOUT, is the host's EngineHang. -/
def Obligations.EngineHangStops : Prop :=
  ∀ (s : State) (slice : Bits) (wait : Option Nat) (rest : List HostAccess),
    s.inputs = .engineRun slice wait :: rest →
    (wait = none ∨ ∃ n limit, wait = some n ∧ s.cfg.engineTimeout = some limit ∧ limit < n) →
    step s = .fault .engineHang

/-- R83, R266: after a flush that covers it, a byte in memory is what a CPU read gives; a flush changes nothing but what
the CPU sees. -/
def Obligations.FlushedBytesAreRead : Prop :=
  ∀ (s : State) (base : Word) (size : Nat) (addr : Word) (b : Byte) (rest : List HostAccess),
    s.inputs = .flushCache base size :: .memRead addr :: rest →
    base.toNat ≤ addr.toNat → addr.toNat < base.toNat + size → Memory.read s.mem addr.toNat = some b →
    ∃ t, step s = .next t ∧ t = { s with inputs := .memRead addr :: rest, dirty := t.dirty }
      ∧ step t = .next { t with inputs := rest, reply := .mem b }

/-- The values that R55 states for reset, in State.reset and after the reset event from any state (R250); the event
leaves memory as it was (R251). -/
def Obligations.ResetValues : Prop :=
  (∀ t : State, t.cfg.asStated → (t = State.reset ∨ ∃ s rest, s.inputs = .openEngine :: rest ∧ step s = .next t) →
    t.acc.nbytes = 0 ∧ t.acc.pending = [] ∧ t.acc.zrun = 0 ∧ vleLen t = 0 ∧ t.epbDis = false
    ∧ t.fault = false ∧ t.geoValid = false ∧ t.faultCode = 0 ∧ t.faultCmd = 0
    ∧ t.geo.src = 0 ∧ t.geo.mb = 0 ∧ t.geo.tile = 0 ∧ t.geo.tile2 = 0 ∧ t.geo.planeSize = 0 ∧ t.geo.inputSize = 0
    ∧ t.geo.reconSize = 0 ∧ t.geo.smallLumaSize = 0 ∧ t.geo.chromaOffset = 0 ∧ t.geo.reconChromaOffset = 0
    ∧ readReg 0x00 t = 0 ∧ readReg 0x48 t = 0x00100000 ∧ readReg 0x4C t = 0x00001000)
  ∧ ∀ (s : State) (rest : List HostAccess), s.inputs = .openEngine :: rest →
      ∃ t, step s = .next t ∧ t.mem = s.mem ∧ t.inputs = rest ∧ t.cfg = s.cfg

/-- The invariant holds after reset, under any parameters and before any accesses of the host. -/
def Obligations.ResetMeetsTheInvariant : Prop :=
  ∀ (cfg : Config) (inputs : List HostAccess), { State.reset with cfg := cfg, inputs := inputs }.Inv

/-- The invariant is kept by every step from every state that meets it. -/
def Obligations.StepKeepsTheInvariant : Prop :=
  ∀ s t : State, s.Inv → step s = .next t → t.Inv

/-- R56: the invariants on every reachable state. -/
def Obligations.ReachableStatesMeetR56 : Prop :=
  ∀ t : State, Reachable t →
    t.acc.pending.length ≤ 7 ∧ t.acc.zrun ≤ 2 ∧ (t.faultCode = 0 ↔ t.fault = false)
    ∧ (t.fault = false → t.faultCmd = 0)
end

