-- ==== Sys2Proof/Laws/State.lean ====
section
/-! SUPPORT. What each update of State leaves in each field, true by definition, so that no later proof unfolds a record
update. -/

namespace Sys2Proof.Machine

/-! ## raiseFault -/

@[simp] theorem raiseFault_cfg (s : State) (c : FaultCode) (w : Word) : (raiseFault c w s).cfg = s.cfg := rfl
@[simp] theorem raiseFault_data (s : State) (c : FaultCode) (w : Word) : (raiseFault c w s).data = s.data := rfl
@[simp] theorem raiseFault_acc (s : State) (c : FaultCode) (w : Word) : (raiseFault c w s).acc = s.acc := rfl
@[simp] theorem raiseFault_epbDis (s : State) (c : FaultCode) (w : Word) : (raiseFault c w s).epbDis = s.epbDis := rfl
@[simp] theorem raiseFault_outStart (s : State) (c : FaultCode) (w : Word) :
    (raiseFault c w s).outStart = s.outStart := rfl
@[simp] theorem raiseFault_outEnd (s : State) (c : FaultCode) (w : Word) : (raiseFault c w s).outEnd = s.outEnd := rfl
@[simp] theorem raiseFault_fault (s : State) (c : FaultCode) (w : Word) : (raiseFault c w s).fault = true := rfl
@[simp] theorem raiseFault_faultCode (s : State) (c : FaultCode) (w : Word) :
    (raiseFault c w s).faultCode = faultCodeBits c := rfl
@[simp] theorem raiseFault_faultCmd (s : State) (c : FaultCode) (w : Word) : (raiseFault c w s).faultCmd = w := rfl
@[simp] theorem raiseFault_geoValid (s : State) (c : FaultCode) (w : Word) :
    (raiseFault c w s).geoValid = s.geoValid := rfl
@[simp] theorem raiseFault_geo (s : State) (c : FaultCode) (w : Word) : (raiseFault c w s).geo = s.geo := rfl
@[simp] theorem raiseFault_mem (s : State) (c : FaultCode) (w : Word) : (raiseFault c w s).mem = s.mem := rfl
@[simp] theorem raiseFault_dirty (s : State) (c : FaultCode) (w : Word) : (raiseFault c w s).dirty = s.dirty := rfl
@[simp] theorem raiseFault_inputs (s : State) (c : FaultCode) (w : Word) : (raiseFault c w s).inputs = s.inputs := rfl
@[simp] theorem raiseFault_reply (s : State) (c : FaultCode) (w : Word) : (raiseFault c w s).reply = s.reply := rfl
@[simp] theorem raiseFault_freeCount (s : State) (c : FaultCode) (w : Word) :
    (raiseFault c w s).freeCount = s.freeCount := rfl

/-! ## clearFault -/

@[simp] theorem clearFault_cfg (s : State) : (clearFault s).cfg = s.cfg := rfl
@[simp] theorem clearFault_data (s : State) : (clearFault s).data = s.data := rfl
@[simp] theorem clearFault_acc (s : State) : (clearFault s).acc = s.acc := rfl
@[simp] theorem clearFault_epbDis (s : State) : (clearFault s).epbDis = s.epbDis := rfl
@[simp] theorem clearFault_outStart (s : State) : (clearFault s).outStart = s.outStart := rfl
@[simp] theorem clearFault_outEnd (s : State) : (clearFault s).outEnd = s.outEnd := rfl
@[simp] theorem clearFault_fault (s : State) : (clearFault s).fault = false := rfl
@[simp] theorem clearFault_faultCode (s : State) : (clearFault s).faultCode = 0 := rfl
@[simp] theorem clearFault_faultCmd (s : State) : (clearFault s).faultCmd = 0 := rfl
@[simp] theorem clearFault_geoValid (s : State) : (clearFault s).geoValid = s.geoValid := rfl
@[simp] theorem clearFault_geo (s : State) : (clearFault s).geo = s.geo := rfl
@[simp] theorem clearFault_mem (s : State) : (clearFault s).mem = s.mem := rfl
@[simp] theorem clearFault_dirty (s : State) : (clearFault s).dirty = s.dirty := rfl
@[simp] theorem clearFault_inputs (s : State) : (clearFault s).inputs = s.inputs := rfl
@[simp] theorem clearFault_reply (s : State) : (clearFault s).reply = s.reply := rfl
@[simp] theorem clearFault_freeCount (s : State) : (clearFault s).freeCount = s.freeCount := rfl

/-! ## commit -/

@[simp] theorem commit_cfg (s : State) (o : Stream) : (s.commit o).cfg = s.cfg := rfl
@[simp] theorem commit_data (s : State) (o : Stream) : (s.commit o).data = s.data := rfl
@[simp] theorem commit_acc (s : State) (o : Stream) : (s.commit o).acc = o.acc := rfl
@[simp] theorem commit_epbDis (s : State) (o : Stream) : (s.commit o).epbDis = s.epbDis := rfl
@[simp] theorem commit_outStart (s : State) (o : Stream) : (s.commit o).outStart = s.outStart := rfl
@[simp] theorem commit_outEnd (s : State) (o : Stream) : (s.commit o).outEnd = s.outEnd := rfl
@[simp] theorem commit_fault (s : State) (o : Stream) : (s.commit o).fault = s.fault := rfl
@[simp] theorem commit_faultCode (s : State) (o : Stream) : (s.commit o).faultCode = s.faultCode := rfl
@[simp] theorem commit_faultCmd (s : State) (o : Stream) : (s.commit o).faultCmd = s.faultCmd := rfl
@[simp] theorem commit_geoValid (s : State) (o : Stream) : (s.commit o).geoValid = s.geoValid := rfl
@[simp] theorem commit_geo (s : State) (o : Stream) : (s.commit o).geo = s.geo := rfl
@[simp] theorem commit_mem (s : State) (o : Stream) : (s.commit o).mem = o.mem := rfl
@[simp] theorem commit_dirty (s : State) (o : Stream) : (s.commit o).dirty = o.dirty := rfl
@[simp] theorem commit_inputs (s : State) (o : Stream) : (s.commit o).inputs = s.inputs := rfl
@[simp] theorem commit_reply (s : State) (o : Stream) : (s.commit o).reply = s.reply := rfl
@[simp] theorem commit_freeCount (s : State) (o : Stream) : (s.commit o).freeCount = s.freeCount := rfl

/-! ## latchGeometry -/

@[simp] theorem latchGeometry_cfg (s : State) : (latchGeometry s).cfg = s.cfg := rfl
@[simp] theorem latchGeometry_data (s : State) : (latchGeometry s).data = s.data := rfl
@[simp] theorem latchGeometry_acc (s : State) : (latchGeometry s).acc = s.acc := rfl
@[simp] theorem latchGeometry_epbDis (s : State) : (latchGeometry s).epbDis = s.epbDis := rfl
@[simp] theorem latchGeometry_outStart (s : State) : (latchGeometry s).outStart = s.outStart := rfl
@[simp] theorem latchGeometry_outEnd (s : State) : (latchGeometry s).outEnd = s.outEnd := rfl
@[simp] theorem latchGeometry_fault (s : State) : (latchGeometry s).fault = s.fault := rfl
@[simp] theorem latchGeometry_faultCode (s : State) : (latchGeometry s).faultCode = s.faultCode := rfl
@[simp] theorem latchGeometry_faultCmd (s : State) : (latchGeometry s).faultCmd = s.faultCmd := rfl
@[simp] theorem latchGeometry_geoValid (s : State) : (latchGeometry s).geoValid = true := rfl
@[simp] theorem latchGeometry_geo (s : State) :
    (latchGeometry s).geo = geoRegsOf s.cfg (dataLow s.data) (dataHigh s.data) := rfl
@[simp] theorem latchGeometry_mem (s : State) : (latchGeometry s).mem = s.mem := rfl
@[simp] theorem latchGeometry_dirty (s : State) : (latchGeometry s).dirty = s.dirty := rfl
@[simp] theorem latchGeometry_inputs (s : State) : (latchGeometry s).inputs = s.inputs := rfl
@[simp] theorem latchGeometry_reply (s : State) : (latchGeometry s).reply = s.reply := rfl
@[simp] theorem latchGeometry_freeCount (s : State) : (latchGeometry s).freeCount = s.freeCount := rfl

/-! ## clearGeometry -/

@[simp] theorem clearGeometry_cfg (s : State) : (clearGeometry s).cfg = s.cfg := rfl
@[simp] theorem clearGeometry_data (s : State) : (clearGeometry s).data = s.data := rfl
@[simp] theorem clearGeometry_acc (s : State) : (clearGeometry s).acc = s.acc := rfl
@[simp] theorem clearGeometry_epbDis (s : State) : (clearGeometry s).epbDis = s.epbDis := rfl
@[simp] theorem clearGeometry_outStart (s : State) : (clearGeometry s).outStart = s.outStart := rfl
@[simp] theorem clearGeometry_outEnd (s : State) : (clearGeometry s).outEnd = s.outEnd := rfl
@[simp] theorem clearGeometry_fault (s : State) : (clearGeometry s).fault = s.fault := rfl
@[simp] theorem clearGeometry_faultCode (s : State) : (clearGeometry s).faultCode = s.faultCode := rfl
@[simp] theorem clearGeometry_faultCmd (s : State) : (clearGeometry s).faultCmd = s.faultCmd := rfl
@[simp] theorem clearGeometry_geoValid (s : State) : (clearGeometry s).geoValid = false := rfl
@[simp] theorem clearGeometry_geo (s : State) : (clearGeometry s).geo = GeoRegs.zero := rfl
@[simp] theorem clearGeometry_mem (s : State) : (clearGeometry s).mem = s.mem := rfl
@[simp] theorem clearGeometry_dirty (s : State) : (clearGeometry s).dirty = s.dirty := rfl
@[simp] theorem clearGeometry_inputs (s : State) : (clearGeometry s).inputs = s.inputs := rfl
@[simp] theorem clearGeometry_reply (s : State) : (clearGeometry s).reply = s.reply := rfl
@[simp] theorem clearGeometry_freeCount (s : State) : (clearGeometry s).freeCount = s.freeCount := rfl

/-! ## resetAccumulator -/

@[simp] theorem resetAccumulator_cfg (s : State) : (resetAccumulator s).cfg = s.cfg := rfl
@[simp] theorem resetAccumulator_data (s : State) : (resetAccumulator s).data = s.data := rfl
@[simp] theorem resetAccumulator_acc (s : State) : (resetAccumulator s).acc = Acc.empty := rfl
@[simp] theorem resetAccumulator_epbDis (s : State) : (resetAccumulator s).epbDis = s.epbDis := rfl
@[simp] theorem resetAccumulator_outStart (s : State) : (resetAccumulator s).outStart = s.outStart := rfl
@[simp] theorem resetAccumulator_outEnd (s : State) : (resetAccumulator s).outEnd = s.outEnd := rfl
@[simp] theorem resetAccumulator_fault (s : State) : (resetAccumulator s).fault = s.fault := rfl
@[simp] theorem resetAccumulator_faultCode (s : State) : (resetAccumulator s).faultCode = s.faultCode := rfl
@[simp] theorem resetAccumulator_faultCmd (s : State) : (resetAccumulator s).faultCmd = s.faultCmd := rfl
@[simp] theorem resetAccumulator_geoValid (s : State) : (resetAccumulator s).geoValid = s.geoValid := rfl
@[simp] theorem resetAccumulator_geo (s : State) : (resetAccumulator s).geo = s.geo := rfl
@[simp] theorem resetAccumulator_mem (s : State) : (resetAccumulator s).mem = s.mem := rfl
@[simp] theorem resetAccumulator_dirty (s : State) : (resetAccumulator s).dirty = s.dirty := rfl
@[simp] theorem resetAccumulator_inputs (s : State) : (resetAccumulator s).inputs = s.inputs := rfl
@[simp] theorem resetAccumulator_reply (s : State) : (resetAccumulator s).reply = s.reply := rfl
@[simp] theorem resetAccumulator_freeCount (s : State) : (resetAccumulator s).freeCount = s.freeCount := rfl

/-! ## flushRange -/

@[simp] theorem flushRange_cfg (s : State) (base : Word) (size : Nat) : (flushRange base size s).cfg = s.cfg := rfl
@[simp] theorem flushRange_data (s : State) (base : Word) (size : Nat) : (flushRange base size s).data = s.data := rfl
@[simp] theorem flushRange_acc (s : State) (base : Word) (size : Nat) : (flushRange base size s).acc = s.acc := rfl
@[simp] theorem flushRange_epbDis (s : State) (base : Word) (size : Nat) :
    (flushRange base size s).epbDis = s.epbDis := rfl
@[simp] theorem flushRange_outStart (s : State) (base : Word) (size : Nat) :
    (flushRange base size s).outStart = s.outStart := rfl
@[simp] theorem flushRange_outEnd (s : State) (base : Word) (size : Nat) :
    (flushRange base size s).outEnd = s.outEnd := rfl
@[simp] theorem flushRange_fault (s : State) (base : Word) (size : Nat) :
    (flushRange base size s).fault = s.fault := rfl
@[simp] theorem flushRange_faultCode (s : State) (base : Word) (size : Nat) :
    (flushRange base size s).faultCode = s.faultCode := rfl
@[simp] theorem flushRange_faultCmd (s : State) (base : Word) (size : Nat) :
    (flushRange base size s).faultCmd = s.faultCmd := rfl
@[simp] theorem flushRange_geoValid (s : State) (base : Word) (size : Nat) :
    (flushRange base size s).geoValid = s.geoValid := rfl
@[simp] theorem flushRange_geo (s : State) (base : Word) (size : Nat) : (flushRange base size s).geo = s.geo := rfl
@[simp] theorem flushRange_mem (s : State) (base : Word) (size : Nat) : (flushRange base size s).mem = s.mem := rfl
@[simp] theorem flushRange_dirty (s : State) (base : Word) (size : Nat) :
    (flushRange base size s).dirty = removeRange s.dirty base.toNat size := rfl
@[simp] theorem flushRange_inputs (s : State) (base : Word) (size : Nat) :
    (flushRange base size s).inputs = s.inputs := rfl
@[simp] theorem flushRange_reply (s : State) (base : Word) (size : Nat) :
    (flushRange base size s).reply = s.reply := rfl
@[simp] theorem flushRange_freeCount (s : State) (base : Word) (size : Nat) :
    (flushRange base size s).freeCount = s.freeCount := rfl

/-! ## resetEvent -/

@[simp] theorem resetEvent_cfg (s : State) : (resetEvent s).cfg = s.cfg := rfl
@[simp] theorem resetEvent_data (s : State) : (resetEvent s).data = Config.freeWord s.freeCount := rfl
@[simp] theorem resetEvent_acc (s : State) : (resetEvent s).acc = Acc.empty := rfl
@[simp] theorem resetEvent_epbDis (s : State) : (resetEvent s).epbDis = false := rfl
@[simp] theorem resetEvent_outStart (s : State) : (resetEvent s).outStart = Config.freeWord (s.freeCount + 1) := rfl
@[simp] theorem resetEvent_outEnd (s : State) : (resetEvent s).outEnd = Config.freeWord (s.freeCount + 2) := rfl
@[simp] theorem resetEvent_fault (s : State) : (resetEvent s).fault = false := rfl
@[simp] theorem resetEvent_faultCode (s : State) : (resetEvent s).faultCode = 0 := rfl
@[simp] theorem resetEvent_faultCmd (s : State) : (resetEvent s).faultCmd = 0 := rfl
@[simp] theorem resetEvent_geoValid (s : State) : (resetEvent s).geoValid = false := rfl
@[simp] theorem resetEvent_geo (s : State) : (resetEvent s).geo = GeoRegs.zero := rfl
@[simp] theorem resetEvent_mem (s : State) : (resetEvent s).mem = s.mem := rfl
@[simp] theorem resetEvent_dirty (s : State) : (resetEvent s).dirty = s.dirty := rfl
@[simp] theorem resetEvent_inputs (s : State) : (resetEvent s).inputs = s.inputs := rfl
@[simp] theorem resetEvent_reply (s : State) : (resetEvent s).reply = s.reply := rfl
@[simp] theorem resetEvent_freeCount (s : State) : (resetEvent s).freeCount = s.freeCount + 3 := rfl

/-! ## The tentative copy -/

@[simp] theorem stream_acc (s : State) : s.stream.acc = s.acc := rfl
@[simp] theorem stream_mem (s : State) : s.stream.mem = s.mem := rfl
@[simp] theorem stream_dirty (s : State) : s.stream.dirty = s.dirty := rfl
@[simp] theorem stream_overflow (s : State) : s.stream.overflow = false := rfl

end Sys2Proof.Machine
end

