-- ==== Sys2Proof/Laws/Memory.lean ====
section
/-! SUPPORT. Memory as a list of cells in canonical form, and lists of addresses: read after write, frames, and that
every operation keeps the form. -/

namespace Sys2Proof.Machine

/-! ## Reading and writing bytes -/

theorem mem_write_keys (m : Memory) (x : Nat) (v : Byte) (a : Nat) :
    a ∈ (Memory.write m x v).map (·.1) ↔ a = x ∨ a ∈ m.map (·.1) := by
  induction m with
  | nil => simp [Memory.write]
  | cons p m ih =>
    obtain ⟨y, b⟩ := p
    simp only [Memory.write]
    split
    · simp
    · split
      · rename_i h; subst h; simp
      · simp only [List.map_cons, List.mem_cons, ih]; tauto

theorem read_write_same (m : Memory) (x : Nat) (v : Byte) : Memory.read (Memory.write m x v) x = some v := by
  induction m with
  | nil => simp [Memory.write, Memory.read]
  | cons p m ih =>
    obtain ⟨y, b⟩ := p
    simp only [Memory.write]
    split
    · simp [Memory.read]
    · split
      · simp [Memory.read]
      · rename_i h; simp [Memory.read, h, ih]

theorem read_write_of_ne (m : Memory) (x : Nat) (v : Byte) {a : Nat} (h : a ≠ x) :
    Memory.read (Memory.write m x v) a = Memory.read m a := by
  induction m with
  | nil => simp [Memory.write, Memory.read, h]
  | cons p m ih =>
    obtain ⟨y, b⟩ := p
    simp only [Memory.write]
    split
    · simp [Memory.read, h]
    · split
      · rename_i h'; subst h'; simp [Memory.read, h]
      · simp [Memory.read, ih]

theorem write_wf {m : Memory} (h : Memory.wf m) {x : Nat} (hx : x < 2 ^ 32) (v : Byte) :
    Memory.wf (Memory.write m x v) := by
  obtain ⟨hp, hb⟩ := h
  constructor
  · clear hb
    induction m with
    | nil => simp [Memory.write]
    | cons p m ih =>
      obtain ⟨y, b⟩ := p
      rw [List.pairwise_cons] at hp
      simp only [Memory.write]
      split
      · rename_i hxy
        refine List.pairwise_cons.2 ⟨?_, List.pairwise_cons.2 hp⟩
        rintro q hq
        rcases List.mem_cons.1 hq with rfl | hq
        · exact hxy
        · exact lt_trans hxy (hp.1 q hq)
      · split
        · rename_i h; subst h
          exact List.pairwise_cons.2 ⟨hp.1, hp.2⟩
        · refine List.pairwise_cons.2 ⟨?_, ih hp.2⟩
          intro q hq
          have : q.1 ∈ (Memory.write m x v).map (·.1) := List.mem_map.2 ⟨q, hq, rfl⟩
          rcases (mem_write_keys m x v q.1).1 this with h | h
          · show y < q.1; omega
          · obtain ⟨r, hr, hr'⟩ := List.mem_map.1 h
            have := hp.1 r hr
            simp only at hr' this ⊢; omega
  · intro p hp
    have : p.1 ∈ (Memory.write m x v).map (·.1) := List.mem_map.2 ⟨p, hp, rfl⟩
    rcases (mem_write_keys m x v p.1).1 this with h | h
    · omega
    · obtain ⟨q, hq, hq'⟩ := List.mem_map.1 h
      have := hb q hq
      omega

/-- A byte is read exactly at the addresses the memory lists. -/
theorem read_isSome_iff (m : Memory) (a : Nat) : (Memory.read m a).isSome ↔ a ∈ m.map (·.1) := by
  induction m with
  | nil => simp [Memory.read]
  | cons p m ih =>
    obtain ⟨y, b⟩ := p
    simp only [Memory.read]
    split
    · rename_i h; simp [h]
    · rename_i h; simp [ih, h]

/-! ## Lists of addresses -/

theorem mem_insertAddr (l : List Nat) (x a : Nat) : a ∈ insertAddr l x ↔ a = x ∨ a ∈ l := by
  induction l with
  | nil => simp [insertAddr]
  | cons y l ih =>
    simp only [insertAddr]
    split
    · simp
    · split
      · rename_i h; subst h; simp
      · simp only [List.mem_cons, ih]; tauto

theorem insertAddr_sorted {l : List Nat} (h : l.Pairwise (· < ·)) (x : Nat) : (insertAddr l x).Pairwise (· < ·) := by
  induction l with
  | nil => simp [insertAddr]
  | cons y l ih =>
    rw [List.pairwise_cons] at h
    simp only [insertAddr]
    split
    · rename_i hxy
      refine List.pairwise_cons.2 ⟨?_, List.pairwise_cons.2 h⟩
      intro q hq
      rcases List.mem_cons.1 hq with rfl | hq
      · exact hxy
      · exact lt_trans hxy (h.1 q hq)
    · split
      · exact List.pairwise_cons.2 h
      · refine List.pairwise_cons.2 ⟨?_, ih h.2⟩
        intro q hq
        rcases (mem_insertAddr l x q).1 hq with rfl | hq
        · omega
        · exact h.1 q hq

theorem mem_removeRange (l : List Nat) (base size a : Nat) :
    a ∈ removeRange l base size ↔ a ∈ l ∧ ¬(base ≤ a ∧ a < base + size) := by
  simp only [removeRange, List.mem_filter, Bool.not_eq_true', Bool.and_eq_false_iff, decide_eq_false_iff_not]
  constructor <;> rintro ⟨h, h'⟩ <;> exact ⟨h, by omega⟩

theorem removeRange_sorted {l : List Nat} (h : l.Pairwise (· < ·)) (base size : Nat) :
    (removeRange l base size).Pairwise (· < ·) :=
  h.filter _

end Sys2Proof.Machine
end

