-- ==== Sys2Proof/Laws/Stream.lean ====
section
/-! SUPPORT. What the append primitives do, as a function of lists: the bit-at-a-time loop of R72 writes exactly the bytes
of `writtenFrom`, at ascending addresses, and no others. -/

namespace Sys2Proof.Machine

/-! ## Splitting a bit string into bytes -/

theorem splitBytes_of_lt {p : Bits} (h : p.length < 8) : splitBytes p = ([], p) := by
  match p with
  | [] | [_] | [_, _] | [_, _, _] | [_, _, _, _] | [_, _, _, _, _] | [_, _, _, _, _, _] | [_, _, _, _, _, _, _] =>
    simp [splitBytes]
  | _ :: _ :: _ :: _ :: _ :: _ :: _ :: _ :: _ => simp only [List.length_cons] at h; omega

theorem splitBytes_of_eq {p : Bits} (h : p.length = 8) (bs : Bits) :
    splitBytes (p ++ bs) = (byteOfBits p :: (splitBytes bs).1, (splitBytes bs).2) := by
  match p with
  | [a, b, c, d, e, f, g, i] =>
    simp only [List.cons_append, List.nil_append, splitBytes, byteOfBits, natOfBits, List.foldl]
    congr 3
    omega
  | [] | [_] | [_, _] | [_, _, _] | [_, _, _, _] | [_, _, _, _, _] | [_, _, _, _, _, _] | [_, _, _, _, _, _, _] =>
    simp at h
  | _ :: _ :: _ :: _ :: _ :: _ :: _ :: _ :: _ :: _ => simp at h

/-- The bits left over are fewer than eight, and none is lost. -/
theorem splitBytes_length (n : Nat) : ∀ p : Bits, p.length ≤ n →
    (splitBytes p).2.length < 8 ∧ 8 * (splitBytes p).1.length + (splitBytes p).2.length = p.length := by
  induction n with
  | zero => intro p h; rw [splitBytes_of_lt (by omega)]; simp; omega
  | succ n ih =>
    intro p h
    by_cases hp : p.length < 8
    · rw [splitBytes_of_lt hp]; simp; omega
    · have e : p = p.take 8 ++ p.drop 8 := (List.take_append_drop 8 p).symm
      rw [e, splitBytes_of_eq (by simp; omega)]
      have := ih (p.drop 8) (by simp; omega)
      simp only [List.length_cons, List.length_append, List.length_take]
      simp only [List.length_drop] at this ⊢
      omega

theorem splitBytes_pending_lt (p : Bits) : (splitBytes p).2.length < 8 := (splitBytes_length _ p le_rfl).1

theorem splitBytes_bits (p : Bits) :
    8 * (splitBytes p).1.length + (splitBytes p).2.length = p.length := (splitBytes_length _ p le_rfl).2

/-! ## Emulation prevention -/

theorem zrunAfter_eq (z : Nat) (b : Byte) : zrunAfter z b = zeroRun z b := by
  unfold zrunAfter zeroRun; split <;> [skip; rfl]; split <;> omega

theorem zeroRun_le (z : Nat) (b : Byte) : zeroRun z b ≤ 2 := by
  unfold zeroRun; split <;> [skip; omega]; split <;> omega

theorem foldl_zeroRun_le {z : Nat} (h : z ≤ 2) (l : List Byte) : l.foldl zeroRun z ≤ 2 := by
  induction l generalizing z with
  | nil => exact h
  | cons b l ih => exact ih (zeroRun_le z b)

theorem stuffed_cons (active : Bool) (z : Nat) (b : Byte) (bs : List Byte) :
    stuffed active z (b :: bs)
      = stuffed active z [b] ++ stuffed active ((stuffed active z [b]).foldl zeroRun z) bs := by
  by_cases h : active = true ∧ z = 2 ∧ b.toNat < 4
  · have e : stuffed active z [b] = [3, b] := by rw [stuffed, if_pos h, stuffed]
    have hz : zeroRun z 3 = 0 := by simp [zeroRun]
    rw [stuffed, if_pos h, e]
    simp only [List.foldl, hz, List.cons_append, List.nil_append]
  · have e : stuffed active z [b] = [b] := by rw [stuffed, if_neg h, stuffed]
    rw [stuffed, if_neg h, e]
    simp only [List.foldl, List.cons_append, List.nil_append]

theorem stuffed_length (active : Bool) (z : Nat) (bs : List Byte) : bs.length ≤ (stuffed active z bs).length := by
  induction bs generalizing z with
  | nil => simp [stuffed]
  | cons b bs ih =>
    unfold stuffed
    split
    · have := ih (zeroRun 0 b); simp only [List.length_cons]; omega
    · have := ih (zeroRun z b); simp only [List.length_cons]; omega

/-! ## Runs of bytes -/

/-- The memory, the stale addresses and the overflow mark after a run of bytes from byte `n` of the stream on. -/
def writeRun (p : OutPort) : Nat → List Byte → Memory × List Nat × Bool → Memory × List Nat × Bool
  | _, [], x => x
  | n, b :: bs, (m, d, o) =>
    writeRun p (n + 1) bs
      (if p.limit.toNat ≤ p.start.toNat + n ∨ 2 ^ 32 ≤ p.start.toNat + n then (m, d, true)
        else (m.write (p.start.toNat + n) b, insertAddr d (p.start.toNat + n), o))

theorem writeRun_append (p : OutPort) (n : Nat) (l l' : List Byte) (x : Memory × List Nat × Bool) :
    writeRun p n (l ++ l') x = writeRun p (n + l.length) l' (writeRun p n l x) := by
  induction l generalizing n x with
  | nil => simp [writeRun]
  | cons b l ih =>
    obtain ⟨m, d, o⟩ := x
    simp only [List.cons_append, writeRun, ih, List.length_cons]
    congr 1; omega

/-- A run overflows exactly when it did before, or has a byte at or above OUT_END. -/
theorem writeRun_overflow (p : OutPort) (n : Nat) (l : List Byte) (m : Memory) (d : List Nat) (o : Bool) :
    (writeRun p n l (m, d, o)).2.2 = false
      ↔ o = false ∧ (l = [] ∨ p.start.toNat + n + l.length ≤ p.limit.toNat) := by
  have hlim := p.limit.isLt
  induction l generalizing n m d o with
  | nil => simp [writeRun]
  | cons b l ih =>
    simp only [writeRun, List.length_cons, reduceCtorEq, false_or]
    by_cases h : p.limit.toNat ≤ p.start.toNat + n ∨ 2 ^ 32 ≤ p.start.toNat + n
    · rw [if_pos h]
      refine (ih _ _ _ _).trans ⟨fun h' => absurd h'.1 (by decide), fun h' => absurd h'.2 (by omega)⟩
    · rw [if_neg h]
      refine (ih _ _ _ _).trans (and_congr_right fun _ => ⟨?_, fun h' => Or.inr (by omega)⟩)
      rintro (rfl | h')
      · simp only [List.length_nil]; omega
      · omega

/-- What a run writes: byte `k` at its address where that lies below OUT_END, and nothing else. -/
theorem writeRun_read (p : OutPort) (n : Nat) (l : List Byte) (x : Memory × List Nat × Bool) (a : Nat) :
    Memory.read (writeRun p n l x).1 a
      = if p.start.toNat + n ≤ a ∧ a < p.start.toNat + n + l.length ∧ a < p.limit.toNat
        then l[a - (p.start.toNat + n)]? else Memory.read x.1 a := by
  have hlim := p.limit.isLt
  induction l generalizing n x with
  | nil => simp only [writeRun, List.length_nil]; rw [if_neg (by omega)]
  | cons b l ih =>
    obtain ⟨m, d, o⟩ := x
    simp only [writeRun, ih, List.length_cons]
    by_cases h1 : p.start.toNat + (n + 1) ≤ a ∧ a < p.start.toNat + (n + 1) + l.length ∧ a < p.limit.toNat
    · rw [if_pos h1, if_pos (by omega)]
      obtain ⟨k, hk⟩ : ∃ k, a - (p.start.toNat + n) = k + 1 := ⟨a - (p.start.toNat + n) - 1, by omega⟩
      rw [hk, show a - (p.start.toNat + (n + 1)) = k by omega]; simp
    · rw [if_neg h1]
      by_cases h0 : p.limit.toNat ≤ p.start.toNat + n ∨ 2 ^ 32 ≤ p.start.toNat + n
      · rw [if_pos h0, if_neg (by omega)]
      · rw [if_neg h0]
        by_cases h2 : a = p.start.toNat + n
        · rw [if_pos (by omega), h2]
          simp [read_write_same]
        · rw [if_neg (by omega)]
          exact read_write_of_ne _ _ _ h2

theorem mem_writeRun_dirty (p : OutPort) (n : Nat) (l : List Byte) (x : Memory × List Nat × Bool) (a : Nat) :
    a ∈ (writeRun p n l x).2.1
      ↔ a ∈ x.2.1 ∨ (p.start.toNat + n ≤ a ∧ a < p.start.toNat + n + l.length ∧ a < p.limit.toNat) := by
  have hlim := p.limit.isLt
  induction l generalizing n x with
  | nil => simp only [writeRun, List.length_nil]; constructor <;> [exact Or.inl; (rintro (h | h) <;> [exact h; omega])]
  | cons b l ih =>
    obtain ⟨m, d, o⟩ := x
    simp only [writeRun, ih, List.length_cons]
    split
    · constructor
      · rintro (h | h) <;> [exact Or.inl h; exact Or.inr (by omega)]
      · rintro (h | h) <;> [exact Or.inl h; exact Or.inr (by omega)]
    · simp only [mem_insertAddr]
      constructor
      · rintro ((h | h) | h) <;> [exact Or.inr (by omega); exact Or.inl h; exact Or.inr (by omega)]
      · rintro (h | h)
        · exact Or.inl (Or.inr h)
        · by_cases e : a = p.start.toNat + n <;> [exact Or.inl (Or.inl e); exact Or.inr (by omega)]

/-- A run keeps memory canonical and the stale addresses in order and listed. -/
theorem writeRun_keeps (p : OutPort) (n : Nat) (l : List Byte) (x : Memory × List Nat × Bool)
    (hw : Memory.wf x.1) (hd : x.2.1.Pairwise (· < ·)) (hm : ∀ a ∈ x.2.1, a ∈ x.1.map (·.1)) :
    Memory.wf (writeRun p n l x).1 ∧ (writeRun p n l x).2.1.Pairwise (· < ·)
      ∧ ∀ a ∈ (writeRun p n l x).2.1, a ∈ (writeRun p n l x).1.map (·.1) := by
  induction l generalizing n x with
  | nil => exact ⟨hw, hd, hm⟩
  | cons b l ih =>
    obtain ⟨m, d, o⟩ := x
    simp only [writeRun]
    split
    · exact ih _ _ hw hd hm
    · refine ih _ _ (write_wf hw (by omega) b) (insertAddr_sorted hd _) ?_
      intro a ha
      rw [mem_write_keys]
      rcases (mem_insertAddr d _ a).1 ha with h | h
      · exact Or.inl h
      · exact Or.inr (hm a h)

/-! ## The primitives as runs of bytes -/

/-- A stream after a run of bytes that leaves the given pending bits and zero run, with `e` EPBs among the bytes. -/
def Stream.after (p : OutPort) (o : Stream) (w : Written) : Stream :=
  let x := writeRun p o.acc.nbytes w.bytes (o.mem, o.dirty, o.overflow)
  ⟨⟨o.acc.nbytes + w.bytes.length, w.pending, w.zrun, if p.countEpb then o.acc.nepb + w.epbs else o.acc.nepb⟩,
    x.1, x.2.1, x.2.2⟩

theorem writeByte_eq (p : OutPort) (b : Byte) (o : Stream) :
    writeByte p b o = o.after p ⟨[b], o.acc.pending, o.acc.zrun, 0⟩ := by
  simp only [writeByte, Stream.after, writeRun]
  split <;> simp

theorem emitByte_eq (p : OutPort) (epb : Bool) (b : Byte) (o : Stream) :
    emitByte p epb b o
      = o.after p ⟨stuffed epb o.acc.zrun [b], o.acc.pending, (stuffed epb o.acc.zrun [b]).foldl zeroRun o.acc.zrun,
          (stuffed epb o.acc.zrun [b]).length - 1⟩ := by
  have hz : zeroRun o.acc.zrun (3 : Byte) = 0 := by simp [zeroRun]
  by_cases h : needsEpb epb o.acc.zrun b = true
  · have h' : epb = true ∧ o.acc.zrun = 2 ∧ b.toNat < 4 := by
      simp only [needsEpb, Bool.and_eq_true, beq_iff_eq, decide_eq_true_eq] at h
      exact ⟨h.1.1, h.1.2, by omega⟩
    have e : stuffed epb o.acc.zrun [b] = [3, b] := by simp [stuffed, h'.1, h'.2.1, h'.2.2]
    simp only [emitByte, h, if_true, insertEpb, writeByte_eq, e, zrunAfter_eq]
    simp only [Stream.after, writeRun, List.foldl, hz, List.length_cons, List.length_nil]
    cases p.countEpb <;> simp [Nat.add_assoc]
  · have h' : ¬(epb = true ∧ o.acc.zrun = 2 ∧ b.toNat < 4) := by
      intro ⟨h1, h2, h3⟩
      exact h (by simp only [needsEpb, h1, h2, Bool.true_and, beq_self_eq_true, decide_eq_true_eq]; omega)
    have e : stuffed epb o.acc.zrun [b] = [b] := by simp [stuffed, h']
    simp only [emitByte, h, if_false, Bool.false_eq_true, writeByte_eq, e, zrunAfter_eq]
    simp only [Stream.after, writeRun, List.foldl, List.length_cons, List.length_nil]

theorem writtenFrom_cons (pend : Bits) (z : Nat) (seg : Segment) (rest : List Segment) :
    writtenFrom pend z (seg :: rest)
      = let w := writtenFrom pend z [seg]
        let w' := writtenFrom w.pending w.zrun rest
        ⟨w.bytes ++ w'.bytes, w'.pending, w'.zrun, w.epbs + w'.epbs⟩ := by
  simp [writtenFrom]

theorem after_after (p : OutPort) (o : Stream) (w w' : Written) :
    (o.after p w).after p w' = o.after p ⟨w.bytes ++ w'.bytes, w'.pending, w'.zrun, w.epbs + w'.epbs⟩ := by
  simp only [Stream.after, writeRun_append, List.length_append]
  cases p.countEpb <;> simp [Nat.add_assoc]

/-- R72 to R75 as one equation: the loop writes the bytes of `writtenFrom`. -/
theorem appendBits_eq (p : OutPort) (epb : Bool) (bits : Bits) (o : Stream) (h : o.acc.pending.length ≤ 7) :
    appendBits p epb bits o = o.after p (writtenFrom o.acc.pending o.acc.zrun [(epb, bits)]) := by
  induction bits generalizing o with
  | nil =>
    have h' : o.acc.pending.length < 8 := by omega
    simp only [appendBits, List.foldl, writtenFrom, List.append_nil, splitBytes_of_lt h']
    simp only [Stream.after, stuffed, writeRun, List.foldl, List.length_nil]
    cases p.countEpb <;> rfl
  | cons b bits ih =>
    simp only [appendBits, List.foldl] at ih ⊢
    rw [appendBit]
    simp only
    have happ : o.acc.pending ++ b :: bits = (o.acc.pending ++ [b]) ++ bits := by simp
    split
    · rename_i h8
      rw [ih _ (by rw [emitByte_eq]; simp [Stream.after]), emitByte_eq, after_after]
      simp only [writtenFrom, happ, splitBytes_of_eq h8, Stream.after, List.append_nil, Nat.add_zero]
      have hc := stuffed_cons epb o.acc.zrun (byteOfBits (o.acc.pending ++ [b])) (splitBytes bits).1
      rw [hc]
      simp only [List.nil_append, List.foldl_append, List.length_append, List.length_cons]
      have h1 := stuffed_length epb o.acc.zrun [byteOfBits (o.acc.pending ++ [b])]
      have h2 := stuffed_length epb
        ((stuffed epb o.acc.zrun [byteOfBits (o.acc.pending ++ [b])]).foldl zeroRun o.acc.zrun) (splitBytes bits).1
      simp only [List.length_cons, List.length_nil] at h1
      congr 3
      omega
    · rename_i h8
      simp only [List.length_append, List.length_cons, List.length_nil] at h8
      rw [ih _ (by simp only [List.length_append, List.length_cons, List.length_nil]; omega)]
      simp only [writtenFrom, happ, Stream.after]

/-! ## Emissions of several segments -/

/-- The segments one after another. -/
def appendSegs (p : OutPort) (segs : List Segment) (o : Stream) : Stream :=
  segs.foldl (fun o seg => appendBits p seg.1 seg.2 o) o

theorem writtenFrom_pending_le (pend : Bits) (z : Nat) (segs : List Segment) (h : pend.length ≤ 7) :
    (writtenFrom pend z segs).pending.length ≤ 7 := by
  induction segs generalizing pend z with
  | nil => exact h
  | cons seg segs ih =>
    simp only [writtenFrom]
    exact ih _ _ (by have := splitBytes_pending_lt (pend ++ seg.2); omega)

theorem writtenFrom_zrun_le (pend : Bits) (z : Nat) (segs : List Segment) (h : z ≤ 2) :
    (writtenFrom pend z segs).zrun ≤ 2 := by
  induction segs generalizing pend z with
  | nil => exact h
  | cons seg segs ih => simp only [writtenFrom]; exact ih _ _ (foldl_zeroRun_le h _)

theorem writtenFrom_epbs_le (pend : Bits) (z : Nat) (segs : List Segment) :
    (writtenFrom pend z segs).epbs ≤ (writtenFrom pend z segs).bytes.length := by
  induction segs generalizing pend z with
  | nil => simp [writtenFrom]
  | cons seg segs ih =>
    simp only [writtenFrom, List.length_append]
    have := ih (splitBytes (pend ++ seg.2)).2 ((stuffed seg.1 z (splitBytes (pend ++ seg.2)).1).foldl zeroRun z)
    omega

theorem appendSegs_eq (p : OutPort) (segs : List Segment) (o : Stream) (h : o.acc.pending.length ≤ 7) :
    appendSegs p segs o = o.after p (writtenFrom o.acc.pending o.acc.zrun segs) := by
  induction segs generalizing o with
  | nil =>
    simp only [appendSegs, List.foldl, writtenFrom, Stream.after, writeRun, List.length_nil]
    cases p.countEpb <;> rfl
  | cons seg segs ih =>
    have e : appendSegs p (seg :: segs) o = appendSegs p segs (appendBits p seg.1 seg.2 o) := rfl
    rw [e, appendBits_eq p _ _ o h, ih _ (writtenFrom_pending_le _ _ _ h), after_after,
      writtenFrom_cons o.acc.pending o.acc.zrun seg segs]
    rfl

end Sys2Proof.Machine
end

