-- ==== Sys2Proof/Laws/Ops.lean ====
section
/-! SUPPORT. What the execution frame and an emission can do, said once: `execute_cases` inverts the frame (R228), and
`emission_of_segs` says what an emission commits and when it overflows. -/

namespace Sys2Proof.Machine

/-! ## The execution frame -/

theorem execute_of_fault {s : State} (h : s.fault = true) (i : Instr) (c : Option FaultCode) (al : Bool)
    (e : State → Option State) : execute i c al e s = s := by
  simp [execute, h]

theorem execute_of_operand {s : State} (h : s.fault = false) (i : Instr) (c : FaultCode) (al : Bool)
    (e : State → Option State) : execute i (some c) al e s = raiseFault c (encode i) s := by
  simp [execute, h]

theorem execute_of_unaligned {s : State} (h : s.fault = false) (hp : s.acc.pending ≠ []) (i : Instr)
    (e : State → Option State) : execute i none true e s = raiseFault .unalignedStart (encode i) s := by
  simp [execute, h, hp]

theorem execute_of_none {s : State} (h : s.fault = false) {al : Bool} (ha : al = true → s.acc.pending = [])
    {e : State → Option State} (he : e s = none) (i : Instr) :
    execute i none al e s = raiseFault .overflow (encode i) s := by
  cases al <;> simp_all [execute]

theorem execute_of_some {s t : State} (h : s.fault = false) {al : Bool} (ha : al = true → s.acc.pending = [])
    {e : State → Option State} (he : e s = some t) (i : Instr) : execute i none al e s = t := by
  cases al <;> simp_all [execute]

/-- Everything the frame can do: ignore the command, raise one fault, or commit the effect. -/
theorem execute_cases (i : Instr) (c : Option FaultCode) (al : Bool) (e : State → Option State) (s : State) :
    (s.fault = true ∧ execute i c al e s = s)
    ∨ (s.fault = false ∧ ∃ k, execute i c al e s = raiseFault k (encode i) s)
    ∨ (s.fault = false ∧ c = none ∧ (al = true → s.acc.pending = []) ∧ ∃ t, e s = some t ∧ execute i c al e s = t) := by
  cases hf : s.fault
  · cases c with
    | some k => exact Or.inr (Or.inl ⟨rfl, k, execute_of_operand hf ..⟩)
    | none =>
      by_cases ha : al = true → s.acc.pending = []
      · cases he : e s with
        | none => exact Or.inr (Or.inl ⟨rfl, .overflow, execute_of_none hf ha he i⟩)
        | some t => exact Or.inr (Or.inr ⟨rfl, rfl, ha, t, rfl, execute_of_some hf ha he i⟩)
      · simp only [Classical.not_imp] at ha
        obtain ⟨rfl, hp⟩ := ha
        exact Or.inr (Or.inl ⟨rfl, .unalignedStart, execute_of_unaligned hf hp i e⟩)
  · exact Or.inl ⟨rfl, execute_of_fault hf ..⟩

/-! ## Emissions -/

theorem writeRun_port (s : State) (w : Written) :
    ((s.stream.after s.port w).overflow = false
      ↔ w.bytes = [] ∨ s.cursor + w.bytes.length ≤ s.outEnd.toNat) := by
  simp only [Stream.after, stream_acc, stream_mem, stream_dirty, stream_overflow, writeRun_overflow, State.port,
    State.cursor, true_and]

/-- A commit of a run of bytes that does not overflow is an emission. -/
theorem commit_emits (s : State) (segs : List Segment) (hf : s.fits segs) :
    s.Emits segs (s.commit (s.stream.after s.port (s.written segs))) where
  nbytes := rfl
  pending := rfl
  zrun := rfl
  nepb := by cases h : s.cfg.epbInLen <;> simp [Stream.after, State.port, h]
  bytes := by
    intro k hk
    have hlt : s.cursor + k < s.outEnd.toNat := by
      rcases hf with h | h
      · rw [h] at hk; exact absurd hk (by simp)
      · omega
    simp only [commit_mem, Stream.after, writeRun_read, stream_acc, State.port]
    rw [if_pos (by simp only [State.cursor] at hlt ⊢; omega)]
    congr 1; simp only [State.cursor]; omega
  elsewhere := by
    intro a ha
    simp only [commit_mem, Stream.after, writeRun_read, stream_acc, State.port, stream_mem]
    rw [if_neg (by simp only [State.cursor] at ha; omega)]
  dirty := by
    intro a
    simp only [commit_dirty, Stream.after, mem_writeRun_dirty, stream_acc, State.port, stream_dirty]
    rcases hf with h | h
    · simp only [h, List.length_nil, Nat.add_zero, State.cursor]
      constructor <;> (rintro (h' | h') <;> [exact Or.inl h'; omega])
    · simp only [State.cursor] at h ⊢
      constructor <;> (rintro (h' | h') <;> [exact Or.inl h'; exact Or.inr (by omega)])
  frame := rfl

/-- What an emission of segments does: commit them when they fit, overflow when they do not. -/
theorem emission_of_segs {s : State} {emit : State → Stream → Stream} {segs : List Segment}
    (he : emit s s.stream = appendSegs s.port segs s.stream) (hp : s.acc.pending.length ≤ 7) :
    (s.fits segs → ∃ t, emission emit s = some t ∧ s.Emits segs t) ∧ (¬s.fits segs → emission emit s = none) := by
  have e : emit s s.stream = s.stream.after s.port (s.written segs) := by
    rw [he, appendSegs_eq _ _ _ hp]; rfl
  have ho := writeRun_port s (s.written segs)
  constructor
  · intro hf
    refine ⟨_, ?_, commit_emits s segs hf⟩
    simp only [emission, e]
    rw [if_neg (by rw [ho.2 hf]; decide)]
  · intro hf
    simp only [emission, e]
    rw [if_pos]
    cases h : (s.stream.after s.port (s.written segs)).overflow
    · exact absurd (ho.1 h) hf
    · rfl

/-- An emission changes the accumulator, memory and the stale addresses only. -/
theorem emission_frame {s t : State} {emit : State → Stream → Stream} (h : emission emit s = some t) :
    t = { s with acc := t.acc, mem := t.mem, dirty := t.dirty } := by
  simp only [emission] at h
  split at h
  · cases h
  · cases h; rfl

/-! ## The invariant -/

theorem inv_raiseFault {s : State} (h : s.Inv) (c : FaultCode) (w : Word) : (raiseFault c w s).Inv := by
  obtain ⟨ha, -, hg, hm, hd⟩ := h
  refine ⟨ha, ⟨?_, ?_, ?_⟩, hg, hm, hd⟩ <;> cases c <;> simp [faultCodeBits]

theorem inv_clearFault {s : State} (h : s.Inv) : (clearFault s).Inv := by
  obtain ⟨ha, -, hg, hm, hd⟩ := h
  exact ⟨ha, ⟨by simp, by simp, by simp⟩, hg, hm, hd⟩

/-- A commit of a run of bytes keeps the invariant, whether or not it overflowed. -/
theorem inv_commit_after {s : State} (h : s.Inv) (segs : List Segment) :
    (s.commit (s.stream.after s.port (s.written segs))).Inv := by
  obtain ⟨⟨hp, hz, hn, he⟩, hf, hg, hm, hd, hk⟩ := h
  have hw := writeRun_keeps s.port s.acc.nbytes (s.written segs).bytes (s.mem, s.dirty, false) hm hd hk
  have hb := writtenFrom_epbs_le s.acc.pending s.acc.zrun segs
  refine ⟨⟨writtenFrom_pending_le _ _ _ hp, writtenFrom_zrun_le _ _ _ hz, ?_, ?_⟩, hf, hg, hw.1, hw.2.1, hw.2.2⟩
  · simp only [commit_acc, Stream.after, stream_acc]
    have : (s.written segs).epbs ≤ (s.written segs).bytes.length := hb
    split <;> omega
  · intro hc
    simp only [commit_cfg] at hc
    simp only [commit_acc, Stream.after, stream_acc, State.port, hc]
    simpa using he hc

theorem inv_emission {s t : State} (h : s.Inv) {emit : State → Stream → Stream} {segs : List Segment}
    (he : emit s s.stream = appendSegs s.port segs s.stream) (ht : emission emit s = some t) : t.Inv := by
  have e : emit s s.stream = s.stream.after s.port (s.written segs) := by
    rw [he, appendSegs_eq _ _ _ h.1.1]; rfl
  simp only [emission, e] at ht
  split at ht
  · cases ht
  · cases ht; exact inv_commit_after h segs

end Sys2Proof.Machine
end

