-- ==== Sys2Proof/Laws/Codes.lean ====
section
/-! SUPPORT. Bit strings and Exp-Golomb codes: lengths, the two forms of R132, the numbers they spell, and the zig-zag
map of R136. -/

namespace Sys2Proof.Machine

theorem bin_length (v n : Nat) : (bin v n).length = n := by
  induction n with
  | zero => rfl
  | succ n ih => simp [bin, ih]

/-- The low bits of a word, read by position (R131). -/
theorem bin_eq_lowBits (d : Word) (n : Nat) : bin d.toNat n = lowBits d n := by
  induction n with
  | zero => rfl
  | succ n ih =>
    have e : lowBits d (n + 1) = d.getLsbD n :: lowBits d n := by
      unfold lowBits
      rw [List.range_succ_eq_map, List.map_cons, List.map_map]
      refine congrArg _ (List.map_congr_left fun k _ => ?_)
      show d.getLsbD (n + 1 - 1 - (k + 1)) = d.getLsbD (n - 1 - k)
      rw [show n + 1 - 1 - (k + 1) = n - 1 - k by omega]
    rw [bin, ih, e]
    rfl

/-- Leading zeros of a number that fits in fewer bits. -/
theorem bin_add {v m : Nat} (h : v < 2 ^ m) (j : Nat) : bin v (j + m) = List.replicate j false ++ bin v m := by
  induction j with
  | zero => simp
  | succ j ih =>
    rw [show j + 1 + m = (j + m) + 1 by omega, bin, ih, List.replicate_succ, List.cons_append,
      Nat.testBit_lt_two_pow (lt_of_lt_of_le h (Nat.pow_le_pow_right (by decide) (by omega)))]

theorem foldl_bits (s : Bits) (n : Nat) :
    s.foldl (fun n b => 2 * n + b.toNat) n = 2 ^ s.length * n + s.foldl (fun n b => 2 * n + b.toNat) 0 := by
  induction s generalizing n with
  | nil => simp
  | cons b s ih =>
    simp only [List.foldl, List.length_cons]
    rw [ih, ih (2 * 0 + b.toNat), Nat.pow_succ]
    ring

/-- The number that `bin(v, n)` spells is `v mod 2^n` (R14). -/
theorem natOfBits_bin (v n : Nat) : natOfBits (bin v n) = v % 2 ^ n := by
  induction n with
  | zero => simp [bin, natOfBits, Nat.mod_one]
  | succ n ih =>
    rw [natOfBits, bin, List.foldl, foldl_bits, bin_length]
    have e : List.foldl (fun n b => 2 * n + b.toNat) 0 (bin v n) = v % 2 ^ n := ih
    rw [e, Nat.mod_pow_succ, Nat.testBit_eq_decide_div_mod_eq]
    rcases Nat.mod_two_eq_zero_or_one (v / 2 ^ n) with h | h 
    · simp [h]
    · simp [h]; omega

/-! ## Unsigned codes (R132) -/

theorem ueCode_length (v : Nat) : (ueCode v).length = 2 * (v + 1).log2 + 1 := bin_length _ _

theorem ueCode_eq (v : Nat) :
    ueCode v = List.replicate (v + 1).log2 false ++ bin (v + 1) ((v + 1).log2 + 1) := by
  rw [ueCode, show 2 * (v + 1).log2 + 1 = (v + 1).log2 + ((v + 1).log2 + 1) by omega, bin_add Nat.lt_log2_self]

theorem testBit_log2 {x : Nat} (h : x ≠ 0) : x.testBit x.log2 = true := by
  have h1 := Nat.log2_self_le h
  have h2 := Nat.lt_log2_self (n := x)
  rw [Nat.testBit_eq_decide_div_mod_eq, decide_eq_true_eq]
  have : x / 2 ^ x.log2 = 1 := Nat.div_eq_of_lt_le (by omega) (by rw [Nat.pow_succ] at h2; omega)
  rw [this]

theorem ueCode_cons (v : Nat) :
    ueCode v = List.replicate (v + 1).log2 false ++ true :: bin (v + 1) (v + 1).log2 := by
  rw [ueCode_eq, bin, testBit_log2 (by omega)]

/-! ## Signed codes (R136, R138) -/

theorem sshiftRight_31 (v : Word) : v.sshiftRight 31 = if v.msb then BitVec.allOnes 32 else 0 := by
  have h1 := v.toInt_lt
  have h2 := v.le_toInt
  have hm := BitVec.msb_eq_toInt (x := v)
  refine BitVec.eq_of_toInt_eq ?_
  rw [BitVec.toInt_sshiftRight, Int.shiftRight_eq_div_pow]
  cases h : v.msb
  · rw [h] at hm
    have : ¬v.toInt < 0 := by simpa using hm
    simp only [Bool.false_eq_true, if_false]
    exact Int.ediv_eq_zero_of_lt (by omega) (by simpa using h1)
  · rw [h] at hm
    have : v.toInt < 0 := by simpa using hm
    have e : (BitVec.allOnes 32).toInt = -1 := by decide
    rw [if_pos rfl, e]
    norm_num at h2 ⊢
    omega

/-- On the SE domain the 32-bit formula of R136 is the zig-zag map. -/
theorem seMap_toNat {v : Word} (h1 : -(2 ^ 30 - 1) ≤ v.toInt) (h2 : v.toInt ≤ 2 ^ 30) :
    (seMap v).toNat = zigzag v.toInt := by
  have ht : (2 * v - 1).toInt = 2 * v.toInt - 1 := by
    rw [BitVec.toInt_sub, BitVec.toInt_mul]
    have e2 : (2 : Word).toInt = 2 := by decide
    have e1 : (1 : Word).toInt = 1 := by decide
    have b2 : (2 * v.toInt - 1).bmod (2 ^ 32) = 2 * v.toInt - 1 :=
      Int.bmod_eq_of_le_mul_two (by omega) (by omega)
    rw [e2, e1, Int.bmod_sub_bmod, b2]
  rw [seMap]
  simp only [sshiftRight_31]
  unfold zigzag
  have hm := BitVec.msb_eq_toInt (x := 2 * v - 1)
  rw [ht] at hm
  by_cases hv : 0 < v.toInt
  · have : (2 * v - 1).msb = false := by rw [hm]; simp; omega
    rw [this, if_pos hv]
    have h0 := BitVec.toInt_eq_toNat_of_msb this
    simp only [Bool.false_eq_true, if_false]
    have hx : (2 * v - 1) ^^^ (0 : Word) = 2 * v - 1 := BitVec.xor_zero
    rw [hx]
    omega
  · have : (2 * v - 1).msb = true := by rw [hm]; simp; omega
    rw [this, if_neg hv, if_pos rfl, BitVec.xor_allOnes]
    have hn := BitVec.toInt_not (x := 2 * v - 1)
    have h0 := BitVec.toInt_eq_msb_cond (2 * v - 1)
    rw [this, if_pos rfl] at h0
    have hlt := (2 * v - 1).isLt
    rw [BitVec.toNat_not]
    omega

theorem seCode_eq {v : Word} (h1 : -(2 ^ 30 - 1) ≤ v.toInt) (h2 : v.toInt ≤ 2 ^ 30) :
    seCode v = ueCode (zigzag v.toInt) := by
  rw [seCode, seMap_toNat h1 h2]

end Sys2Proof.Machine
end

