-- ==== Sys2Proof/Laws/Commands.lean ====
section
/-! SUPPORT. The emission of every command as the segments of `State.segments`, and the outcome of every command: which
fault it raises, or what it emits. Later proofs cite `exec_outcome` and do not unfold a meaning. -/

namespace Sys2Proof.Machine

/-! ## The units as tables -/

theorem flag_eq (b : Bool) : flag b = bin b.toNat 1 := by cases b <;> decide

theorem audBits_eq (cfg : Config) : audBits cfg = tableBits (audTable cfg) := by
  simp [audBits, audTable, tableBits, elementBits, nalHeader]

theorem spsBits_eq (cfg : Config) (w h : Nat) : spsBits cfg w h = tableBits (spsTable cfg w h) := by
  cases hp : cfg.picOrderCntType <;>
    simp [spsBits, spsTable, tableBits, elementBits, spsPocBits, nalHeader, hp, flag_eq]

theorem ppsBits_eq (cfg : Config) : ppsBits cfg = tableBits (ppsTable cfg) := by
  simp [ppsBits, ppsTable, tableBits, elementBits, nalHeader, flag_eq, seRow]

theorem sliceHeaderBits_eq (cfg : Config) : sliceHeaderBits cfg = tableBits (sliceTable cfg) := by
  cases hp : cfg.picOrderCntType <;>
    simp [sliceHeaderBits, sliceTable, tableBits, elementBits, slicePocBits, nalHeader, hp, flag_eq, seRow]

theorem startSegment_length : startSegment.2.length = 32 := by decide

theorem stopAndZeros_length (n : Nat) : (stopAndZeros n).length = 9 - (n + 1) % 8 := by
  simp only [stopAndZeros, List.length_cons, List.length_replicate]; omega

theorem startCodeBits_eq : startCodeBits = List.replicate 31 false ++ [true] := by decide

theorem trailingBits_eq (n : Nat) : trailingBits n = stopAndZeros n := rfl

theorem stopAndZeros_mod {a b : Nat} (h : a % 8 = b % 8) : stopAndZeros a = stopAndZeros b := by
  rw [stopAndZeros, stopAndZeros, show (a + 1) % 8 = (b + 1) % 8 by omega]

theorem dataLow_eq (d : Word) : dataLow d = d.toNat % 65536 := by
  simp [dataLow, BitVec.extractLsb'_toNat]

theorem dataHigh_eq (d : Word) : dataHigh d = d.toNat / 65536 := by
  have := d.isLt
  rw [dataHigh, BitVec.extractLsb'_toNat, Nat.shiftRight_eq_div_pow]
  exact Nat.mod_eq_of_lt (by omega)

theorem dataLow_lt (d : Word) : dataLow d < 65536 := (d.extractLsb' 0 16).isLt

theorem dataHigh_lt (d : Word) : dataHigh d < 65536 := (d.extractLsb' 16 16).isLt

/-! ## Emissions as segments -/

theorem appendBits_append (p : OutPort) (epb : Bool) (a b : Bits) (o : Stream) :
    appendBits p epb (a ++ b) o = appendBits p epb b (appendBits p epb a o) := List.foldl_append ..

theorem appendSegs_nil (p : OutPort) (o : Stream) : appendSegs p [] o = o := rfl

theorem appendSegs_cons (p : OutPort) (seg : Segment) (segs : List Segment) (o : Stream) :
    appendSegs p (seg :: segs) o = appendSegs p segs (appendBits p seg.1 seg.2 o) := rfl

theorem append_eq_segs (s : State) (bits : Bits) (o : Stream) :
    s.append bits o = appendSegs s.port [(!s.epbDis, bits)] o := rfl

theorem emitStartCode_eq (s : State) (o : Stream) : emitStartCode s o = appendSegs s.port [startSegment] o := by
  simp only [emitStartCode, startCodeBits_eq, State.appendRaw, startSegment, appendSegs_cons, appendSegs_nil]

theorem emitTrailing_eq (s : State) (o : Stream) :
    emitTrailing s o = appendSegs s.port [(!s.epbDis, stopAndZeros (8 * o.acc.nbytes + o.acc.pending.length))] o := by
  simp only [emitTrailing, append_eq_segs, trailingBits_eq, accBits]

theorem appendSegs_append (p : OutPort) (a b : List Segment) (o : Stream) :
    appendSegs p (a ++ b) o = appendSegs p b (appendSegs p a o) := List.foldl_append ..

/-- The pending bits after an emission are what is left over of all its bits. -/
theorem writtenFrom_pending_length (pend : Bits) (z : Nat) (segs : List Segment) (h : pend.length ≤ 7) :
    (writtenFrom pend z segs).pending.length = (pend.length + (segs.flatMap (·.2)).length) % 8 := by
  induction segs generalizing pend z with
  | nil => simp [writtenFrom]; omega
  | cons seg segs ih =>
    have h1 := splitBytes_pending_lt (pend ++ seg.2)
    have h2 := splitBytes_bits (pend ++ seg.2)
    simp only [writtenFrom, List.flatMap_cons, List.length_append] at h2 ⊢
    rw [ih _ _ (by omega)]
    omega

/-- A unit from a byte boundary (R180): start code, payload, trailing bits, and a byte boundary again (R153). -/
theorem unit_eq {s : State} {o : Stream} (h : o.acc.pending = []) (payload : Bits) :
    emitTrailing s (s.append payload (emitStartCode s o)) = appendSegs s.port (unitSegments (!s.epbDis) payload) o
    ∧ (appendSegs s.port (unitSegments (!s.epbDis) payload) o).acc.pending = [] := by
  have hp : o.acc.pending.length ≤ 7 := by rw [h]; decide
  have e1 : s.append payload (emitStartCode s o) = appendSegs s.port [startSegment, (!s.epbDis, payload)] o := by
    rw [emitStartCode_eq, append_eq_segs, ← appendSegs_append, List.singleton_append]
  have hl : (appendSegs s.port [startSegment, (!s.epbDis, payload)] o).acc.pending.length % 8 = payload.length % 8 := by
    rw [appendSegs_eq _ _ _ hp]
    show (writtenFrom _ _ _).pending.length % 8 = _
    rw [writtenFrom_pending_length _ _ _ hp]
    simp only [h, List.length_nil, List.flatMap_cons, List.flatMap_nil, List.length_append, startSegment_length]
    omega
  constructor
  · rw [e1, emitTrailing_eq]
    rw [stopAndZeros_mod (b := payload.length) (by omega)]
    simp only [unitSegments, appendSegs_cons, appendSegs_nil, appendBits_append]
  · rw [appendSegs_eq _ _ _ hp]
    show (writtenFrom _ _ _).pending = []
    rw [← List.length_eq_zero_iff, writtenFrom_pending_length _ _ _ hp]
    simp only [h, List.length_nil, unitSegments, List.flatMap_cons, List.flatMap_nil, List.length_append,
      startSegment_length, stopAndZeros_length]
    omega

theorem emitFrameHeaders_eq {s : State} {o : Stream} (h : o.acc.pending = []) (f : Bool) :
    emitFrameHeaders f s o
      = appendSegs s.port (frameSegments (!s.epbDis) s.cfg f (s.data.toNat % 65536) (s.data.toNat / 65536)) o := by
  have u1 := unit_eq (s := s) h (tableBits (audTable s.cfg))
  have u2 := unit_eq (s := s) u1.2 (tableBits (spsTable s.cfg (s.data.toNat % 65536) (s.data.toNat / 65536)))
  have u3 := unit_eq (s := s) u2.2 (tableBits (ppsTable s.cfg))
  have e1 : emitAudUnit s o = appendSegs s.port (unitSegments (!s.epbDis) (tableBits (audTable s.cfg))) o := by
    rw [← u1.1, emitAudUnit, emitAud, audBits_eq]
  have e2 : ∀ o', emitSliceUnit s o' = appendSegs s.port [startSegment, (!s.epbDis, tableBits (sliceTable s.cfg))] o' := by
    intro o'
    rw [emitSliceUnit, emitSliceHeader, sliceHeaderBits_eq, emitStartCode_eq, append_eq_segs,
      ← appendSegs_append, List.singleton_append]
  cases f with
  | false =>
    simp only [emitFrameHeaders, frameSegments, Bool.false_eq_true, if_false, List.append_nil, appendSegs_append, e1, e2]
  | true =>
    simp only [emitFrameHeaders, frameSegments, if_true, appendSegs_append, e1, e2]
    rw [← u3.1, ← u2.1, emitParameterSets, emitPps, emitSps, ppsBits_eq, spsBits_eq, dataLow_eq, dataHigh_eq]

/-! ## Operand checks -/

/-- The number of a check's fault, 0 where it passes. -/
def checkBitsOf : Option FaultCode → BitVec 4
  | none => 0
  | some c => faultCodeBits c

theorem checkBits_eq (n : Nat) (cfg : Config) (d : Word) :
    checkBitsOf (checkBits cfg n) = operandFault cfg d (.putBits n) := by
  simp only [checkBits, operandFault, gt_iff_lt]
  split <;> rfl

theorem checkUe_eq (cfg : Config) (d : Word) : checkBitsOf (checkUe cfg d) = operandFault cfg d .putUe := by
  have e : d = 0xFFFFFFFF ↔ d.toNat = 2 ^ 32 - 1 := by rw [← BitVec.toNat_inj]; rfl
  simp only [checkUe, operandFault, e, gt_iff_lt]
  split <;> rfl

theorem checkSe_eq (cfg : Config) (d : Word) : checkBitsOf (checkSe cfg d) = operandFault cfg d .putSe := by
  simp only [checkSe, operandFault]
  by_cases h : d.toInt < -(2 ^ 30 - 1) ∨ d.toInt > 2 ^ 30
  · rw [if_pos h, if_pos (by omega)]; rfl
  · rw [if_neg h, seCode_eq (by omega) (by omega)]
    split
    · rw [if_pos (by omega)]; rfl
    · rw [if_neg (by omega)]; rfl

theorem checkMb_eq (cfg : Config) (d : Word) : checkBitsOf (checkMb d) = operandFault cfg d .putSps := by
  simp only [checkMb, operandFault, dataLow_eq, dataHigh_eq]
  split <;> rfl

theorem checkFrame_eq (f : Bool) (cfg : Config) (d : Word) :
    checkBitsOf (checkFrame f d) = operandFault cfg d (.putFrameHeaders f) := by
  cases f
  · rfl
  · simp only [checkFrame, checkMb, operandFault, dataLow_eq, dataHigh_eq, true_and, if_true]
    split <;> rfl

theorem geoInDomain_iff (cfg : Config) (w h : Nat) :
    geoInDomain cfg w h = true ↔ cfg.wMin ≤ w ∧ w ≤ cfg.wMax ∧ cfg.hMin ≤ h ∧ h ≤ cfg.hMax := by
  rw [geoInDomain]
  simp only [Bool.and_eq_true, decide_eq_true_eq, and_assoc]

theorem checkGeo_eq (cfg : Config) (d : Word) : checkBitsOf (checkGeo cfg d) = operandFault cfg d .geoCompute := by
  simp only [checkGeo, operandFault, ← dataLow_eq, ← dataHigh_eq]
  have := geoInDomain_iff cfg (dataLow d) (dataHigh d)
  cases h : geoInDomain cfg (dataLow d) (dataHigh d)
  · rw [h] at this
    rw [if_neg (by decide), if_pos]
    · rfl
    · by_contra hc
      exact absurd (this.2 (by omega)) (by decide)
  · have := this.1 h
    rw [if_pos rfl, if_neg (by omega)]; rfl

/-! ## The outcome of every command -/

/-- Whether a command emits bits. -/
def emitsBits : Instr → Bool
  | .nop | .vleReset | .geoCompute | .geoClear => false
  | .putBits _ | .putUe | .putSe | .putStartCode | .putTrailing | .putAud | .putSps | .putPps | .putSliceHeader
  | .putFrameHeaders _ => true

/-- The shape of every command that emits bits: the frame around a check and an emission of `State.segments`. -/
theorem exec_shape (i : Instr) (hi : emitsBits i = true) (s : State) :
    ∃ c emit, exec i s = .next (execute i c (needsBoundary i) (emission emit) s)
      ∧ checkBitsOf c = operandFault s.cfg s.data i
      ∧ (c = none → (needsBoundary i = true → s.acc.pending = []) →
          emit s s.stream = appendSegs s.port (s.segments i) s.stream) := by
  cases i with
  | nop | vleReset | geoCompute | geoClear => cases hi
  | putBits n =>
    refine ⟨_, _, rfl, checkBits_eq n _ _, fun _ _ => ?_⟩
    simp only [append_eq_segs, bin_eq_lowBits, State.segments]
  | putUe => exact ⟨_, _, rfl, checkUe_eq _ _, fun _ _ => rfl⟩
  | putSe =>
    refine ⟨_, _, rfl, checkSe_eq _ _, fun hc _ => ?_⟩
    have : ¬(s.data.toInt < -(2 ^ 30 - 1) ∨ s.data.toInt > 2 ^ 30) := fun h => by
      rw [checkSe, if_pos h] at hc; cases hc
    simp only [append_eq_segs, State.segments, seCode_eq (v := s.data) (by omega) (by omega)]
  | putStartCode => exact ⟨_, _, rfl, rfl, fun _ _ => emitStartCode_eq s _⟩
  | putTrailing => exact ⟨_, _, rfl, rfl, fun _ _ => emitTrailing_eq s _⟩
  | putAud =>
    refine ⟨_, _, rfl, rfl, fun _ _ => ?_⟩
    simp only [emitAud, append_eq_segs, audBits_eq, State.segments]
  | putSps =>
    refine ⟨_, _, rfl, checkMb_eq _ _, fun _ _ => ?_⟩
    simp only [emitSps, append_eq_segs, spsBits_eq, State.segments, dataLow_eq, dataHigh_eq]
  | putPps =>
    refine ⟨_, _, rfl, rfl, fun _ _ => ?_⟩
    simp only [emitPps, append_eq_segs, ppsBits_eq, State.segments]
  | putSliceHeader =>
    refine ⟨_, _, rfl, rfl, fun _ _ => ?_⟩
    simp only [emitSliceHeader, append_eq_segs, sliceHeaderBits_eq, State.segments]
  | putFrameHeaders f => exact ⟨_, _, rfl, checkFrame_eq f _ _, fun _ h => emitFrameHeaders_eq (h rfl) f⟩

/-- The outcome of a command that emits bits, where no fault is pending: its first failing check, or its segments. -/
theorem exec_outcome (i : Instr) (hi : emitsBits i = true) (s : State) (hf : s.fault = false)
    (hp : s.acc.pending.length ≤ 7) :
    (operandFault s.cfg s.data i ≠ 0 →
      exec i s = .next { s with fault := true, faultCode := operandFault s.cfg s.data i, faultCmd := encode i })
    ∧ (operandFault s.cfg s.data i = 0 → needsBoundary i = true → s.acc.pending ≠ [] →
      exec i s = .next { s with fault := true, faultCode := 7, faultCmd := encode i })
    ∧ (operandFault s.cfg s.data i = 0 → (needsBoundary i = true → s.acc.pending = []) → ¬s.fits (s.segments i) →
      exec i s = .next { s with fault := true, faultCode := 8, faultCmd := encode i })
    ∧ (operandFault s.cfg s.data i = 0 → (needsBoundary i = true → s.acc.pending = []) → s.fits (s.segments i) →
      ∃ t, exec i s = .next t ∧ s.Emits (s.segments i) t) := by
  obtain ⟨c, emit, he, hc, hseg⟩ := exec_shape i hi s
  rw [he, ← hc]
  cases c with
  | some k =>
    have hk : checkBitsOf (some k) ≠ 0 := by cases k <;> decide
    refine ⟨fun _ => ?_, fun h => absurd h hk, fun h => absurd h hk, fun h => absurd h hk⟩
    rw [execute_of_operand hf]; rfl
  | none =>
    refine ⟨fun h => absurd rfl h, fun _ hb hpe => ?_, fun _ hb hfit => ?_, fun _ hb hfit => ?_⟩
    · rw [hb, execute_of_unaligned hf hpe]; rfl
    · rw [execute_of_none hf hb ((emission_of_segs (hseg rfl hb) hp).2 hfit)]; rfl
    · obtain ⟨t, ht, hem⟩ := (emission_of_segs (hseg rfl hb) hp).1 hfit
      exact ⟨t, by rw [execute_of_some hf hb ht], hem⟩

end Sys2Proof.Machine
end

