-- ==== Sys2Proof/Laws/Bus.lean ====
section
/-! SUPPORT. What a host access can do, said once for each kind, and that each kind keeps the invariant. -/

namespace Sys2Proof.Machine

/-! ## Every command -/

/-- Everything an effect can do to the state it runs on: emit, nothing, empty the accumulator, latch or clear the
geometry. -/
inductive EffectOf (s : State) (i : Instr) : State → Prop
  | emit (h : emitsBits i = true) (hf : s.fits (s.segments i)) :
      EffectOf s i (s.commit (s.stream.after s.port (s.written (s.segments i))))
  | nop (h : i = .nop) : EffectOf s i s
  | vleReset (h : i = .vleReset) : EffectOf s i (resetAccumulator s)
  | geoCompute (h : i = .geoCompute) (hd : geoInDomain s.cfg (dataLow s.data) (dataHigh s.data) = true) :
      EffectOf s i (latchGeometry s)
  | geoClear (h : i = .geoClear) : EffectOf s i (clearGeometry s)

/-- Everything a command can do: ignore itself, raise one fault, or have its own effect. -/
theorem exec_cases (i : Instr) (s : State) (hp : s.acc.pending.length ≤ 7) :
    (s.fault = true ∧ exec i s = .next s)
    ∨ (s.fault = false ∧ ∃ k, exec i s = .next (raiseFault k (encode i) s))
    ∨ (s.fault = false ∧ ∃ t, exec i s = .next t ∧ EffectOf s i t) := by
  by_cases hb : emitsBits i = true
  · obtain ⟨c, emit, he, -, hseg⟩ := exec_shape i hb s
    rw [he]
    rcases execute_cases i c (needsBoundary i) (emission emit) s with ⟨h, h'⟩ | ⟨h, k, h'⟩ | ⟨h, hc, hal, t, ht, h'⟩
    · exact .inl ⟨h, by rw [h']⟩
    · exact .inr (.inl ⟨h, k, by rw [h']⟩)
    · refine .inr (.inr ⟨h, t, by rw [h'], ?_⟩)
      have e : emit s s.stream = s.stream.after s.port (s.written (s.segments i)) := by
        rw [hseg hc hal, appendSegs_eq _ _ _ hp]; rfl
      have ho := writeRun_port s (s.written (s.segments i))
      simp only [emission, e] at ht
      split at ht
      · cases ht
      · rename_i hov
        cases ht
        exact .emit hb (ho.1 (by simpa using hov))
  · cases i <;> simp only [emitsBits, not_true_eq_false] at hb
    case geoCompute =>
      rcases execute_cases .geoCompute (checkGeo s.cfg s.data) false (fun s => some (latchGeometry s)) s with
        ⟨h, h'⟩ | ⟨h, k, h'⟩ | ⟨h, hc, -, t, ht, h'⟩
      · exact .inl ⟨h, congrArg _ h'⟩
      · exact .inr (.inl ⟨h, k, congrArg _ h'⟩)
      · refine .inr (.inr ⟨h, t, congrArg _ h', ?_⟩)
        cases ht
        refine .geoCompute rfl ?_
        rw [checkGeo] at hc
        split at hc
        · assumption
        · cases hc
    all_goals
      cases hf : s.fault
      · exact .inr (.inr ⟨rfl, _, by simp [exec, execNop, execVleReset, execGeoClear, execute, hf]; rfl, by
          constructor; rfl⟩)
      · exact .inl ⟨rfl, congrArg _ (execute_of_fault hf ..)⟩

/-! ## Packed halves (R102, R194) -/

theorem packHalves_toNat {h l : Nat} (hh : h < 65536) (hl : l < 65536) :
    (packHalves h l).toNat = h * 65536 + l := by
  have e : h <<< 16 = h * 65536 := Nat.shiftLeft_eq h 16
  rw [packHalves, BitVec.toNat_or, BitVec.toNat_shiftLeft, BitVec.toNat_ofNat, BitVec.toNat_ofNat,
    Nat.mod_eq_of_lt (a := h) (by omega), Nat.mod_eq_of_lt (a := l) (by omega), Nat.mod_eq_of_lt (by omega),
    ← Nat.shiftLeft_add_eq_or_of_lt (by omega), e]

theorem dataLow_packHalves {h l : Nat} (hh : h < 65536) (hl : l < 65536) : dataLow (packHalves h l) = l := by
  rw [dataLow_eq, packHalves_toNat hh hl]; omega

theorem dataHigh_packHalves {h l : Nat} (hh : h < 65536) (hl : l < 65536) : dataHigh (packHalves h l) = h := by
  rw [dataHigh_eq, packHalves_toNat hh hl]; omega

/-! ## The invariant -/

theorem inv_latchGeometry {s : State} (h : s.Inv) (hd : geoInDomain s.cfg (dataLow s.data) (dataHigh s.data) = true) :
    (latchGeometry s).Inv := by
  obtain ⟨ha, hf, -, hm, hdi⟩ := h
  refine ⟨ha, hf, ⟨fun hv => (by cases hv), fun _ => ?_⟩, hm, hdi⟩
  simp only [latchGeometry_geo, latchGeometry_cfg]
  have e1 : dataLow (geoRegsOf s.cfg (dataLow s.data) (dataHigh s.data)).src = dataLow s.data :=
    dataLow_packHalves (dataHigh_lt _) (dataLow_lt _)
  have e2 : dataHigh (geoRegsOf s.cfg (dataLow s.data) (dataHigh s.data)).src = dataHigh s.data :=
    dataHigh_packHalves (dataHigh_lt _) (dataLow_lt _)
  rw [e1, e2]
  exact ⟨hd, rfl⟩

theorem inv_clearGeometry {s : State} (h : s.Inv) : (clearGeometry s).Inv :=
  ⟨h.1, h.2.1, ⟨fun _ => rfl, fun hv => by cases hv⟩, h.2.2.2⟩

theorem inv_resetAccumulator {s : State} (h : s.Inv) : (resetAccumulator s).Inv :=
  ⟨⟨Nat.zero_le _, Nat.zero_le _, le_rfl, fun _ => rfl⟩, h.2⟩

/-- Every command keeps the invariant. -/
theorem inv_exec {i : Instr} {s t : State} (h : s.Inv) (he : exec i s = .next t) : t.Inv := by
  rcases exec_cases i s h.1.1 with ⟨-, h'⟩ | ⟨-, k, h'⟩ | ⟨-, t', h', hef⟩ <;> rw [h'] at he <;> cases he
  · exact h
  · exact inv_raiseFault h k _
  · cases hef with
    | emit _ _ => exact inv_commit_after h _
    | nop _ => exact h
    | vleReset _ => exact inv_resetAccumulator h
    | geoCompute _ hd => exact inv_latchGeometry h hd
    | geoClear _ => exact inv_clearGeometry h

theorem inv_executeIllegal {s : State} (h : s.Inv) (w : Word) : (executeIllegal w s).Inv := by
  rw [executeIllegal]; split
  · exact h
  · exact inv_raiseFault h _ _

theorem inv_runWord {w : Word} {s t : State} (h : s.Inv) (he : runWord w s = .next t) : t.Inv := by
  rw [runWord] at he
  split at he
  · exact inv_exec h he
  · cases he; exact inv_executeIllegal h w

theorem inv_writeReg {s : State} (h : s.Inv) (offset : Nat) (v : Word) : (writeReg offset v s).Inv := by
  unfold writeReg; split
  all_goals try exact h
  split <;> [exact inv_clearFault h; exact h]

theorem inv_resetEvent {s : State} (h : s.Inv) : (resetEvent s).Inv :=
  ⟨⟨Nat.zero_le _, Nat.zero_le _, le_rfl, fun _ => rfl⟩, ⟨by simp [resetEvent], fun _ => rfl, by simp [resetEvent]⟩,
    ⟨fun _ => rfl, fun hv => by cases hv⟩, h.2.2.2⟩

/-- The engine's run as a run of bytes (R268). -/
theorem engineAppend_eq (slice : Bits) {s : State} (hp : s.acc.pending.length ≤ 7) :
    engineAppend slice s = s.commit (s.stream.after s.port (s.written [(!s.epbDis, slice)])) := by
  rw [engineAppend, append_eq_segs, appendSegs_eq _ _ _ hp]; rfl

theorem inv_engineAppend {s : State} (h : s.Inv) (slice : Bits) : (engineAppend slice s).Inv := by
  rw [engineAppend_eq slice h.1.1]; exact inv_commit_after h _

theorem inv_flushRange {s : State} (h : s.Inv) (base : Word) (size : Nat) : (flushRange base size s).Inv := by
  obtain ⟨ha, hf, hg, hm, hd, hk⟩ := h
  exact ⟨ha, hf, hg, hm, removeRange_sorted hd _ _, fun a h' => hk a ((mem_removeRange _ _ _ _).1 h').1⟩

theorem inv_hostMemRead {s : State} (h : s.Inv) (addr : Word) : (hostMemRead addr s).Inv := by
  rw [hostMemRead]; split <;> exact h

/-! ## One step -/

/-- Everything a step can do: wait, or take one access and do what it asks. -/
theorem step_cases {s t : State} (h : step s = .next t) :
    (s.inputs = [] ∧ t = s)
    ∨ ∃ a rest, s.inputs = a :: rest ∧
      ((∃ offset v, offset ≠ 0 ∧ a = .regWrite offset 4 v ∧ t = writeReg offset v { s with inputs := rest })
      ∨ (∃ w, a = .regWrite 0 4 w ∧ runWord w { s with inputs := rest } = .next t)
      ∨ (∃ offset, a = .regRead offset 4 ∧
          t = { s with inputs := rest, reply := .reg (readReg offset { s with inputs := rest }) })
      ∨ (∃ addr, a = .memRead addr ∧ t = hostMemRead addr { s with inputs := rest })
      ∨ (∃ base size, a = .flushCache base size ∧ t = flushRange base size { s with inputs := rest })
      ∨ (∃ slice wait, a = .engineRun slice wait ∧ completesInTime s.cfg.engineTimeout wait = true ∧
          t = engineAppend slice { s with inputs := rest })
      ∨ (a = .openEngine ∧ t = resetEvent { s with inputs := rest })) := by
  rw [step, nextAccess] at h
  cases hi : s.inputs with
  | nil => rw [hi] at h; cases h; exact .inl ⟨rfl, rfl⟩
  | cons a rest =>
    refine .inr ⟨a, rest, rfl, ?_⟩
    rw [hi] at h
    simp only at h
    have bytes4 : ∀ {offset bytes}, checkAccess s.cfg offset bytes = none → bytes = 4 := by
      intro offset bytes hc
      rw [checkAccess] at hc
      split at hc
      · cases hc
      · omega
    cases a with
    | regWrite offset bytes v =>
      simp only [busAction] at h
      cases hc : checkAccess s.cfg offset bytes with
      | some r => rw [hc] at h; cases h
      | none =>
        rw [hc] at h
        obtain rfl := bytes4 hc
        by_cases h0 : offset = cmdOffset
        · simp only [h0, if_true] at h; subst h0; exact .inr (.inl ⟨v, rfl, h⟩)
        · simp only [h0, if_false] at h; cases h; exact .inl ⟨offset, v, h0, rfl, rfl⟩
    | regRead offset bytes =>
      simp only [busAction] at h
      cases hc : checkAccess s.cfg offset bytes with
      | some r => rw [hc] at h; cases h
      | none =>
        rw [hc] at h
        obtain rfl := bytes4 hc
        cases h; exact .inr (.inr (.inl ⟨offset, rfl, rfl⟩))
    | memRead addr => cases h; exact .inr (.inr (.inr (.inl ⟨addr, rfl, rfl⟩)))
    | flushCache base size => cases h; exact .inr (.inr (.inr (.inr (.inl ⟨base, size, rfl, rfl⟩))))
    | engineRun slice wait =>
      simp only [busAction] at h
      by_cases hw : completesInTime s.cfg.engineTimeout wait = true
      · simp only [hw, if_true] at h
        cases h; exact .inr (.inr (.inr (.inr (.inr (.inl ⟨slice, wait, rfl, hw, rfl⟩)))))
      · simp only [hw, if_false, Bool.false_eq_true] at h; cases h
    | openEngine => cases h; exact .inr (.inr (.inr (.inr (.inr (.inr ⟨rfl, rfl⟩)))))

end Sys2Proof.Machine
end

