-- ==== Sys2Proof/Laws/HostProgram.lean ====
section
/-! SUPPORT. What the stream start leaves (R254), and that the frames of a stream carry the sizes of the geometry it
latched (R263, R276). -/

namespace Sys2Proof.Machine

/-- GEO_MB's fields under the geometry of a size of the domain are mb_w and mb_h (R192, R194). -/
theorem geoMb_fields {cfg : Config} (hc : cfg.asStated) {w h : Nat} (hw : w ≤ 1920) (hh : h ≤ 1080) :
    dataLow (geoRegsOf cfg w h).mb = mbDim cfg w ∧ dataHigh (geoRegsOf cfg w h).mb = mbDim cfg h := by
  have bound : ∀ a ≤ 1920, mbDim cfg a < 65536 := fun a ha => by
    simp only [mbDim, ceilDiv, hc, FixedParams.stated]; omega
  exact ⟨dataLow_packHalves (bound h (by omega)) (bound w hw), dataHigh_packHalves (bound h (by omega)) (bound w hw)⟩

/-- Packing GEO_MB's own fields gives GEO_MB, so PUT_SPS runs with DATA = GEO_MB. -/
theorem packHalves_fields (d : Word) : packHalves (dataHigh d) (dataLow d) = d := by
  apply BitVec.eq_of_toNat_eq
  rw [packHalves_toNat (dataHigh_lt d) (dataLow_lt d), dataHigh_eq, dataLow_eq]
  omega

/-! ## One access at the head of the queue -/

/-- An access of the defined form passes the check (R51). -/
theorem checkAccess_window {cfg : Config} (hc : cfg.asStated) {offset : Nat} (ha : offset % 4 = 0)
    (hw : offset < 0x100) : checkAccess cfg offset 4 = none := by
  have : cfg.regWindowSize = 0x100 := by simp only [hc, FixedParams.stated]
  rw [checkAccess, if_neg (by decide), if_neg (by omega), if_neg (by omega)]

theorem step_rd {s : State} {offset : Nat} {rest : List HostAccess} (hc : s.cfg.asStated) (ha : offset % 4 = 0)
    (hw : offset < 0x100) (hi : s.inputs = rd offset :: rest) :
    step s = .next { s with inputs := rest, reply := .reg (readReg offset { s with inputs := rest }) } := by
  simp only [step, nextAccess, hi, rd, busAction, checkAccess_window hc ha hw]

theorem step_wr {s : State} {offset : Nat} {v : Word} {rest : List HostAccess} (hc : s.cfg.asStated)
    (ha : offset % 4 = 0) (hw : offset < 0x100) (h0 : offset ≠ 0) (hi : s.inputs = wr offset v :: rest) :
    step s = .next (writeReg offset v { s with inputs := rest }) := by
  simp only [step, nextAccess, hi, wr, busAction, checkAccess_window hc ha hw, cmdOffset, h0, if_false]

theorem step_cmd {s : State} {i : Instr} {rest : List HostAccess} (hc : s.cfg.asStated)
    (hd : decode (encode i) = .ok i) (hi : s.inputs = cmd i :: rest) : step s = exec i { s with inputs := rest } := by
  simp only [step, nextAccess, hi, cmd, cmdWrite, busAction, cmdOffset,
    checkAccess_window hc (offset := 0) rfl (by decide), if_true, runWord, hd]

theorem step_openEngine {s : State} {rest : List HostAccess} (hi : s.inputs = .openEngine :: rest) :
    step s = .next (resetEvent { s with inputs := rest }) := by
  simp only [step, nextAccess, hi, busAction]

/-- A run takes its first step, then the rest. -/
theorem run_succ {s t : State} (k : Nat) (h : step s = .next t) :
    Sys2Proof.core.run (k + 1) s = Sys2Proof.core.run k t := by
  simp only [Host.Core.run, show Sys2Proof.core.step s = .next t from h]

/-- A run of register reads changes nothing but the reply (R80). -/
theorem run_reads (offsets : List Nat) {s : State} {rest : List HostAccess} (hc : s.cfg.asStated)
    (ho : ∀ o ∈ offsets, o % 4 = 0 ∧ o < 0x100) (hi : s.inputs = offsets.map rd ++ rest) :
    ∃ r, Sys2Proof.core.run offsets.length s = .next { s with inputs := rest, reply := r } := by
  induction offsets generalizing s with
  | nil => exact ⟨s.reply, by subst hi; rfl⟩
  | cons o os ih =>
    have h0 := ho o (.head _)
    obtain ⟨r, hr⟩ := ih (s := { s with inputs := os.map rd ++ rest, reply := _ }) hc
      (fun o h => ho o (.tail _ h)) rfl
    exact ⟨r, (run_succ _ (step_rd hc h0.1 h0.2 hi)).trans hr⟩

/-! ## The stream start -/

theorem exec_geoCompute_next {s : State} (hf : s.fault = false)
    (hd : geoInDomain s.cfg (dataLow s.data) (dataHigh s.data) = true) :
    exec .geoCompute s = .next (latchGeometry s) := by
  show Host.Outcome.next (execute ..) = _
  rw [checkGeo, hd, if_pos rfl, execute_of_some (t := latchGeometry s) hf (fun h => by cases h) (by rfl)]

/-- The stream start (R254), from any state: the geometry is latched, the size reads change nothing but the reply, and
GEO_MB holds what the frames' PUT_SPS takes. -/
theorem streamStart_geo {s : State} {w h : Nat} {rest : List HostAccess} (hc : s.cfg.asStated)
    (hd : geoInDomain s.cfg w h = true) (hi : s.inputs = streamStart w h ++ rest) :
    ∃ t, Sys2Proof.core.run (streamStart w h).length s = .next t ∧ t.inputs = rest ∧ t.fault = false
      ∧ t.cfg = s.cfg ∧ t.geoValid = true ∧ t.geo = geoRegsOf s.cfg w h
      ∧ readReg 0x24 t = (geoRegsOf s.cfg w h).mb := by
  have hb := (geoInDomain_iff _ _ _).1 hd
  simp only [hc, FixedParams.stated] at hb
  have hl : dataLow (packHalves h w) = w := dataLow_packHalves (by omega) (by omega)
  have hh : dataHigh (packHalves h w) = h := dataHigh_packHalves (by omega) (by omega)
  let opened : State := resetEvent { s with inputs := expandPseudo (.geo w h) ++ bufferSizeReads ++ rest }
  let written : State :=
    writeReg 0x04 (packHalves h w) { opened with inputs := cmd .geoCompute :: bufferSizeReads ++ rest }
  have latch := exec_geoCompute_next (s := { written with inputs := bufferSizeReads ++ rest }) rfl
    (show geoInDomain s.cfg (dataLow (packHalves h w)) (dataHigh (packHalves h w)) = true by rw [hl, hh, hd])
  obtain ⟨r, hr⟩ := run_reads [0x34, 0x48, 0x38, 0x3C, 0x4C]
    (s := latchGeometry { written with inputs := bufferSizeReads ++ rest }) (rest := rest) hc (by decide) rfl
  have geo : geoRegsOf s.cfg (dataLow (packHalves h w)) (dataHigh (packHalves h w)) = geoRegsOf s.cfg w h := by
    rw [hl, hh]
  exact ⟨_, (run_succ 7 (step_openEngine hi)).trans <| (run_succ 6 (step_wr (s := opened) hc rfl (by decide)
    (by decide) rfl)).trans <| (run_succ 5 ((step_cmd (s := written) hc (by decide) rfl).trans latch)).trans hr,
    rfl, rfl, rfl, rfl, geo, congrArg GeoRegs.mb geo⟩

end Sys2Proof.Machine
end

