-- ==== Sys2Proof/Laws/PerInstr.lean ====
section
/-! SUPPORT. A law about every instruction as syntax: its word is one that its own row of R103's table matches and builds
it from. -/

namespace Sys2Proof.Laws.EncodesItsRow

/-- A well-formed instruction's word has its row's match value under its row's mask, and the row reads the instruction
back from it. -/
def Statement (i : Instr) : Prop :=
  i.wellFormed = true → ∃ r ∈ opcodeRows, encode i &&& r.mask = r.pattern ∧ r.build (encode i) = i

theorem nop : Statement .nop := fun _ => by decide

/-- N is read back from bits 13:8. -/
theorem putBits (n : Nat) : Statement (.putBits n) := fun h => by
  have all : ∀ k : Fin 64, ∃ r ∈ opcodeRows,
      encode (.putBits k.1) &&& r.mask = r.pattern ∧ r.build (encode (.putBits k.1)) = .putBits k.1 := by decide
  exact all ⟨n, Nat.lt_succ_of_le (of_decide_eq_true h)⟩

theorem putUe : Statement .putUe := fun _ => by decide
theorem putSe : Statement .putSe := fun _ => by decide
theorem putStartCode : Statement .putStartCode := fun _ => by decide
theorem putTrailing : Statement .putTrailing := fun _ => by decide
theorem putAud : Statement .putAud := fun _ => by decide
theorem putSps : Statement .putSps := fun _ => by decide
theorem putPps : Statement .putPps := fun _ => by decide
theorem putSliceHeader : Statement .putSliceHeader := fun _ => by decide

/-- F is read back from bit 16. -/
theorem putFrameHeaders (f : Bool) : Statement (.putFrameHeaders f) := fun _ => by cases f <;> decide

theorem vleReset : Statement .vleReset := fun _ => by decide
theorem geoCompute : Statement .geoCompute := fun _ => by decide
theorem geoClear : Statement .geoClear := fun _ => by decide

end Sys2Proof.Laws.EncodesItsRow
end

