-- ==== Sys2Proof/Tests/Slice0.lean ====
section
/-! SUPPORT. Small tests: ill-formed and reserved encodings, one word of every command from the spec's encoding lines,
one step of every command with the results of 95_test_vectors.md, and a witness for the hypotheses of every obligation. -/

namespace Sys2Proof.Machine.Test

set_option Elab.async false

/-! ## Helpers -/

/-- The spec's "empty" start state (95_test_vectors.md, Conventions) with a DATA value. -/
def empty (d : Word) : State := { State.reset with data := d, outStart := 0x1000, outEnd := 0x101000 }

/-- The empty state with one pending bit. -/
def offBoundary (d : Word) : State := { empty d with acc := ⟨0, [true], 0, 0⟩ }

/-- The empty state with a buffer of `n` bytes. -/
def room (n : Nat) (d : Word) : State := { empty d with outEnd := BitVec.ofNat 32 (0x1000 + n) }

/-- The empty state under other parameters. -/
def under (c : Config) (d : Word) : State := { empty d with cfg := c }

/-- A state with a pending fault. -/
def faulted : State := { empty 5 with fault := true, faultCode := 2, faultCmd := 0x00002101 }

/-- A state with a geometry. -/
def withGeometry : State := { empty 5 with geo := geoRegsOf Config.default 320 240, geoValid := true }

/-- The empty state with another accumulator. -/
def withAcc (a : Acc) (d : Word) : State := { empty d with acc := a }

/-- The defaults with `EPB_IN_LEN` = false. -/
def epbOutOfLen : Config := { Config.default with epbInLen := false }

/-- The defaults with an `ENGINE_TIMEOUT`. -/
def boundedWait (n : Nat) : Config := { Config.default with engineTimeout := some n }

/-- A state with one host access to come. -/
def before (a : HostAccess) (s : State) : State := { s with inputs := [a] }

/-- One step that runs a command word. -/
def stepWord (w : Word) (s : State) : Host.Outcome State Fault Refusal := step (before (cmdWrite w) s)

/-- What a step leaves of the accumulator and memory: the bytes from OUT_START, the pending bits and VLE_LEN. -/
def leaves (o : Host.Outcome State Fault Refusal) (bytes : List Byte) (pending : Bits) (len : Word) : Bool :=
  match o with
  | .next t => decide (t.mem.map (·.2) = bytes) && decide (t.acc.pending = pending) && decide (vleLen t = len)
      && decide (t.fault = false)
  | .fault _ => false
  | .refused _ => false

/-- A step that raises a fault: STATUS and FAULT_CMD. -/
def faults (o : Host.Outcome State Fault Refusal) (status cmd : Word) : Bool :=
  match o with
  | .next t => decide (statusWord t = status) && decide (t.faultCmd = cmd)
  | .fault _ => false
  | .refused _ => false

/-- The geometry registers after a step, in the columns of 95_test_vectors.md 2.8. -/
def geometry (o : Host.Outcome State Fault Refusal) (rows : List Word) : Bool :=
  match o with
  | .next t => decide ([t.geo.mb, t.geo.tile, t.geo.tile2, t.geo.planeSize, t.geo.inputSize, t.geo.reconSize,
      t.geo.smallLumaSize, t.geo.chromaOffset, t.geo.reconChromaOffset] = rows)
  | .fault _ => false
  | .refused _ => false

/-! ## WellFormed (R102) -/

/-- N has six bits, so a count of 64 has no word. -/
theorem test_wellFormed_refuses_bits_64 : (Instr.putBits 64).wellFormed = false := by decide

theorem test_wellFormed_bits_63 : (Instr.putBits 63).wellFormed = true := by decide

/-! ## Decoding: the encoding line of every command, bit by bit -/

/-- R210. -/
theorem test_decode_nop : decode 0b00000000000000000000000000000000 = .ok .nop := by decide
/-- R131, N = 0b100000. -/
theorem test_decode_putBits : decode 0b00000000000000000010000000000001 = .ok (.putBits 32) := by decide
/-- R135. -/
theorem test_decode_putUe : decode 0b00000000000000000000000000000010 = .ok .putUe := by decide
/-- R139. -/
theorem test_decode_putSe : decode 0b00000000000000000000000000000011 = .ok .putSe := by decide
/-- R151. -/
theorem test_decode_putStartCode : decode 0b00000000000000000000000000000100 = .ok .putStartCode := by decide
/-- R152. -/
theorem test_decode_putTrailing : decode 0b00000000000000000000000000000101 = .ok .putTrailing := by decide
/-- R161. -/
theorem test_decode_putAud : decode 0b00000000000000000000000000000110 = .ok .putAud := by decide
/-- R167. -/
theorem test_decode_putSps : decode 0b00000000000000000000000000000111 = .ok .putSps := by decide
/-- R171. -/
theorem test_decode_putPps : decode 0b00000000000000000000000000001000 = .ok .putPps := by decide
/-- R176. -/
theorem test_decode_putSliceHeader : decode 0b00000000000000000000000000001001 = .ok .putSliceHeader := by decide
/-- R180, F = 1. -/
theorem test_decode_putFrameHeaders : decode 0b00000000000000010000000000001010 = .ok (.putFrameHeaders true) := by
  decide
/-- R211. -/
theorem test_decode_vleReset : decode 0b00000000000000000000000000001011 = .ok .vleReset := by decide
/-- R194. -/
theorem test_decode_geoCompute : decode 0b00000000000000000000000000010000 = .ok .geoCompute := by decide
/-- R195. -/
theorem test_decode_geoClear : decode 0b00000000000000000000000000010001 = .ok .geoClear := by decide
/-- 95_test_vectors.md 2.1, the illegal words. -/
theorem test_decode_illegal :
    ([0x0002000A, 0x00000100, 0x00000102, 0x00004001, 0x00010001, 0x80000002] : List Word).map decode
      = List.replicate 6 (.error .reservedField) := by decide
/-- 95_test_vectors.md 2.1, the reserved opcodes. -/
theorem test_decode_reserved :
    ([0x0000000C, 0x00000012, 0x000000FF] : List Word).map decode = List.replicate 3 (.error .reservedOpcode) := by decide
theorem test_decodeTableWord : decodeTableWord 32 0x0001000A = some (.putFrameHeaders true) := by decide

/-! ## One step of every command (95_test_vectors.md part 2) -/

/-- The first command after reset. -/
theorem test_nop_after_reset : step (State.reset.withFetchWord 32 0x00000000) = .next State.reset := by rfl

theorem test_putBits_epb : leaves (stepWord 0x00001801 (empty 1)) [0x00, 0x00, 0x03, 0x01] [] 32 = true :=
  by decide +kernel
theorem test_putBits_width : faults (stepWord 0x00002101 (empty 1)) 0x00000201 0x00002101 = true :=
  by decide +kernel
theorem test_putUe_longest : leaves (stepWord 0x00000002 (empty 0xFFFFFFFE))
    [0x00, 0x00, 0x03, 0x00, 0x01, 0xFF, 0xFF, 0xFF] (List.replicate 7 true) 71 = true :=
  by decide +kernel
theorem test_putUe_range : faults (stepWord 0x00000002 (empty 0xFFFFFFFF)) 0x00000301 0x00000002 = true :=
  by decide +kernel
theorem test_putSe_least : leaves (stepWord 0x00000003 (empty 0xC0000001))
    [0x00, 0x00, 0x03, 0x00, 0x03, 0xFF, 0xFF, 0xFF] (List.replicate 5 true) 69 = true :=
  by decide +kernel
theorem test_putSe_range : faults (stepWord 0x00000003 (empty 0x40000001)) 0x00000401 0x00000003 = true :=
  by decide +kernel
theorem test_putStartCode : leaves (stepWord 0x00000004 (withAcc ⟨0, [], 2, 0⟩ 0))
    [0x00, 0x00, 0x00, 0x01] [] 32 = true :=
  by decide +kernel
theorem test_putStartCode_unaligned : faults (stepWord 0x00000004 (offBoundary 0)) 0x00000701 0x00000004 = true :=
  by decide +kernel
/-- Seven one-bits, then the stop bit and eight zeros (C2). -/
theorem test_putTrailing_nine_bits :
    leaves (stepWord 0x00000005 (withAcc ⟨0, List.replicate 7 true, 0, 0⟩ 0)) [0xFF, 0x00] [] 16 = true :=
  by decide +kernel
theorem test_putTrailing_overflow : faults (stepWord 0x00000005 (room 0 0)) 0x00000801 0x00000005 = true :=
  by decide +kernel
theorem test_putAud : leaves (stepWord 0x00000006 (empty 0)) [0x09] [true, true, true] 11 = true :=
  by decide +kernel
theorem test_putSps_largest : leaves (stepWord 0x00000007 (empty 0xFFFFFFFF))
    [0x67, 0x4D, 0x00, 0x29, 0xF4, 0x00, 0x01, 0xFF, 0xFE, 0x00, 0x03, 0xFF, 0xFF] [false, false] 106 = true :=
  by decide +kernel
theorem test_putSps_range : faults (stepWord 0x00000007 (empty 0x000F0000)) 0x00000501 0x00000007 = true :=
  by decide +kernel
theorem test_putPps : leaves (stepWord 0x00000008 (empty 0)) [0x68, 0xEE, 0x31] [false, false, false, true, false, false]
    30 = true :=
  by decide +kernel
theorem test_putSliceHeader : leaves (stepWord 0x00000009 (empty 0)) [0x65, 0xB8, 0x40, 0x11] [true, true] 34 = true :=
  by decide +kernel
theorem test_putSliceHeader_poc2 :
    leaves (stepWord 0x00000009 (under { Config.default with picOrderCntType := .two } 0)) [0x65, 0xB8, 0x41]
      [false, false, false, true, true, true] 30 = true :=
  by decide +kernel
theorem test_putFrameHeaders_first : leaves (stepWord 0x0001000A (empty 0x000F0014))
    [0x00, 0x00, 0x00, 0x01, 0x09, 0xF0, 0x00, 0x00, 0x00, 0x01, 0x67, 0x4D, 0x00, 0x29, 0xF4, 0x0A, 0x0F, 0xC8, 0x00, 0x00,
      0x00, 0x01, 0x68, 0xEE, 0x31, 0x12, 0x00, 0x00, 0x00, 0x01, 0x65, 0xB8, 0x40, 0x11] [true, true] 274 = true :=
  by decide +kernel
/-- The operand fault outranks UNALIGNED_START. -/
theorem test_putFrameHeaders_priority : faults (stepWord 0x0001000A (offBoundary 0)) 0x00000501 0x0001000A = true :=
  by decide +kernel
theorem test_vleReset : leaves (stepWord 0x0000000B (withAcc ⟨1, List.replicate 4 true, 1, 0⟩ 0)) [] [] 0
    = true :=
  by decide +kernel
theorem test_geoCompute : geometry (stepWord 0x00000010 (empty 0x00F00140))
    [0x000F0014, 0x01000140, 0x008000A0, 76800, 115200, 122880, 20480, 76800, 81920] = true :=
  by decide +kernel
/-- TILE2 and small_luma_size as 2.8 gives them; recon_size by hand from R193, 96 * 96 + 96 * 64. -/
theorem test_geoCompute_ceil :
    geometry (stepWord 0x00000010 (under { Config.default with halfDimRound := .ceil } 0x00410041))
      [0x00050005, 0x00600060, 0x00400040, 6400, 9600, 15360, 4096, 6400, 9216] = true :=
  by decide +kernel
theorem test_geoClear :
    geometry (stepWord 0x00000011 withGeometry)
      [0, 0, 0, 0, 0, 0, 0, 0, 0] = true :=
  by decide +kernel

/-! ## Accesses other than commands -/

/-- 95_test_vectors.md 2.10: a full buffer takes a bit that completes no byte. -/
theorem test_full_buffer_takes_a_bit : leaves (stepWord 0x00000101 (room 0 0)) [] [false] 1 = true :=
  by decide +kernel

/-- R212: the zero run counts across a change of CTRL. -/
theorem test_zero_run_kept : leaves (stepWord 0x00000801 (withAcc ⟨0, [], 2, 0⟩ 1)) [0x03, 0x01] [] 16
    = true :=
  by decide +kernel

/-- R35 with EPB_IN_LEN = false. -/
theorem test_epb_not_in_length :
    leaves (stepWord 0x00001801 (under epbOutOfLen 1)) [0x00, 0x00, 0x03, 0x01] [] 24
      = true :=
  by decide +kernel

/-- R230. -/
theorem test_fault_clear : step (before (.regWrite 0x18 4 1) faulted) = .next (empty 5) := by rfl

/-- R111: `se -1`. -/
theorem test_pseudo_se : expandPseudo (.se (-1)) = [.regWrite 0x04 4 0xFFFFFFFF, .regWrite 0x00 4 0x00000003] :=
  by decide +kernel

/-- R254: the stream start of 320 by 240, the size reads in the order of allocation. -/
theorem test_streamStart : streamStart 320 240
    = [.openEngine, .regWrite 0x04 4 0x00F00140, .regWrite 0x00 4 0x00000010, .regRead 0x34 4, .regRead 0x48 4,
      .regRead 0x38 4, .regRead 0x3C 4, .regRead 0x4C 4] := by decide +kernel

/-- R263: the first frame's PUT_SPS has mb_w = 20 and mb_h = 15 for 320 by 240. -/
theorem test_parameterSets : (expandProgram (parameterSetProgram true (geoRegsOf Config.default 320 240).mb)).take 3
    = [.regWrite 0x00 4 0x00000004, .regWrite 0x04 4 0x000F0014, .regWrite 0x00 4 0x00000007] := by decide +kernel

/-! ## Witnesses: a state and operands for the hypotheses of every obligation, at the ends of each clause's range -/

/-- The invariant holds of the test states that the witnesses use. -/
theorem test_witness_inv_empty : (empty 5).Inv := by decide +kernel
theorem test_witness_inv_zeroRun : (withAcc ⟨2, [], 2, 0⟩ 0).Inv ∧ (withAcc ⟨1, [], 1, 0⟩ 0).Inv := by decide +kernel
theorem test_witness_inv_offBoundary : (offBoundary 5).Inv := by decide +kernel
theorem test_witness_inv_room : (room 3 5).Inv := by decide +kernel
theorem test_witness_inv_faulted : faulted.Inv := by decide +kernel
theorem test_witness_inv_epbOutOfLen : (under epbOutOfLen 5).Inv := by decide +kernel
theorem test_witness_inv_geometry : withGeometry.Inv := by decide +kernel

/-- The fixed parameters of every test state are R11's. -/
theorem test_witness_asStated :
    State.reset.cfg.asStated ∧ (under epbOutOfLen 5).cfg.asStated ∧ (under (boundedWait 3) 5).cfg.asStated := by decide

/-- WorkedEncodings, VleResetEmptiesTheAccumulator, GeoComputeLatchesTheGeometry, GeoClearZeroesTheGeometry. -/
theorem test_witness_no_fault : (empty 5).fault = false := by decide

theorem test_witness_DecodeOfEncode :
    (Instr.putBits 0).wellFormed = true ∧ (Instr.putFrameHeaders true).wellFormed = true := by decide

theorem test_witness_EncodeOfDecode : decode 0x00003F01 = .ok (.putBits 63) := by decide

theorem test_witness_ReservedOpcodesAreIllegal :
    (0x0C ≤ (0xFFFFFF0C : Word).toNat % 256 ∧ (0xFFFFFF0C : Word).toNat % 256 ≤ 0x0F)
    ∧ (0x0000000F : Word).toNat % 256 ≤ 0x0F ∧ 0x12 ≤ (0x00000012 : Word).toNat % 256
    ∧ 0x12 ≤ (0x000000FF : Word).toNat % 256 := by decide

/-- One word for each branch of the mask, at a lowest and a highest reserved bit. -/
theorem test_witness_ReservedFieldsAreIllegal :
    ((0x00004001 : Word).toNat % 256 = 0x01 ∧ (0x00004001 : Word) &&& 0xFFFFC000 ≠ 0)
    ∧ ((0x0000010A : Word).toNat % 256 = 0x0A ∧ (0x0000010A : Word) &&& 0xFFFEFF00 ≠ 0)
    ∧ ((0x80000011 : Word).toNat % 256 = 0x11 ∧ (0x80000011 : Word) &&& 0xFFFFFF00 ≠ 0)
    ∧ ((0x0000010B : Word).toNat % 256 = 0x0B ∧ (0x0000010B : Word) &&& 0xFFFFFF00 ≠ 0) := by decide +kernel

theorem test_witness_StepRunsTheDecodedCommand :
    (before (.regWrite 0x00 4 0x10) (empty 5)).inputs = .regWrite 0x00 4 0x10 :: [] ∧ decode 0x10 = .ok .geoCompute
    ∧ decode 0x12 = .error .reservedOpcode ∧ (before (.regWrite 0x00 4 0x12) (empty 5)).fault = false := by decide

theorem test_witness_MachineWaitsForAccesses : State.reset.inputs = [] := by decide

/-- The last defined access, and one access for each way to leave the window. -/
theorem test_witness_UndefinedAccessesAreRefused :
    (before (.regRead 0xFC 4) (empty 5)).inputs = .regRead 0xFC 4 :: [] ∧ 0xFC % 4 = 0 ∧ 0xFC < 0x100
    ∧ (before (.regRead 0x04 2) (empty 5)).inputs = .regRead 0x04 2 :: [] ∧ 2 ≠ 4
    ∧ (before (.regWrite 0x06 4 0) (empty 5)).inputs = .regWrite 0x06 4 0 :: [] ∧ 0x06 % 4 ≠ 0
    ∧ (before (.regRead 0x100 4) (empty 5)).inputs = .regRead 0x100 4 :: [] ∧ 0x100 ≤ 0x100 := by decide

theorem test_witness_RegisterReads :
    (before (.regRead 0x04 4) (empty 5)).inputs = .regRead 0x04 4 :: [] ∧ (empty 5).data = 5 := by decide

theorem test_witness_StatusAndCtrlReads :
    (before (.regRead 0x18 4) faulted).inputs = .regRead 0x18 4 :: []
    ∧ (before (.regRead 0x0C 4) faulted).inputs = .regRead 0x0C 4 :: [] := by decide

theorem test_witness_VleLenRead :
    (before (.regRead 0x08 4) (empty 5)).Inv ∧ (empty 5).cfg.epbInLen = true
    ∧ (before (.regRead 0x08 4) (under epbOutOfLen 5)).Inv := by decide +kernel

/-- Each clause's offset. -/
theorem test_witness_RegisterWrites :
    ∀ o ∈ [0x04, 0x0C, 0x10, 0x14, 0x08, 0x4C],
      (before (.regWrite o 4 7) (empty 5)).inputs = .regWrite o 4 7 :: [] := by decide

/-- A write with bit 0 set, one with every other bit set, and the reset event. -/
theorem test_witness_FaultClear :
    (before (.regWrite 0x18 4 1) faulted).inputs = .regWrite 0x18 4 1 :: [] ∧ (1 : Word).getLsbD 0 = true
    ∧ (before (.regWrite 0x18 4 0xFFFFFFFE) faulted).inputs = .regWrite 0x18 4 0xFFFFFFFE :: []
    ∧ (0xFFFFFFFE : Word).getLsbD 0 = false
    ∧ (before .openEngine faulted).inputs = .openEngine :: [] := by decide

theorem test_witness_FaultIsSticky :
    faulted.fault = true ∧ (before (.regWrite 0x00 4 2) faulted).inputs = .regWrite 0x00 4 2 :: []
    ∧ (before (.regWrite 0x04 4 2) faulted).inputs = .regWrite 0x04 4 2 :: []
    ∧ (before (.regWrite 0xFC 4 2) faulted).inputs = .regWrite 0xFC 4 2 :: []
    ∧ (before (.regRead 0x00 4) faulted).inputs = .regRead 0x00 4 :: [] := by decide

/-- A step that leaves the fault state, and one that does not. -/
theorem test_witness_FaultEndsOnlyByClear :
    (∃ t, step (before (.regWrite 0x18 4 1) faulted) = .next t ∧ t.fault = false)
    ∧ (∃ t, step (before (.regWrite 0x00 4 0) faulted) = .next t ∧ t.fault = true) :=
  ⟨⟨_, rfl, rfl⟩, ⟨_, rfl, rfl⟩⟩

theorem test_witness_FaultsArePrecise : ∃ t, runWord 0x0000000C (empty 5) = .next t ∧ t.fault = true := ⟨_, rfl, rfl⟩

/-- One command for each place in the priority order. -/
theorem test_witness_FaultPriority :
    (empty 0).Inv ∧ faulted.fault = true ∧ (empty 0).fault = false ∧ decode 0x0C = .error .reservedOpcode
    ∧ decode 0x0001000A = .ok (.putFrameHeaders true)
    ∧ operandFault (empty 0).cfg (empty 0).data (.putFrameHeaders true) ≠ 0
    ∧ operandFault (offBoundary 5).cfg (offBoundary 5).data .putStartCode = 0 ∧ needsBoundary .putStartCode = true
    ∧ (offBoundary 5).acc.pending ≠ []
    ∧ (room 3 5).acc.pending = [] ∧ ¬(room 3 5).fits ((room 3 5).segments .putStartCode)
    ∧ (room 4 5).fits ((room 4 5).segments .putStartCode) := by decide +kernel

/-- The two states differ in the accumulator and the buffer. -/
theorem test_witness_OperandFaultsReadOnlyTheOperand :
    (∃ t, exec .putSps (offBoundary 5) = .next t ∧ t.faultCode = 5) ∧ (∃ t, exec .putSps (room 0 5) = .next t ∧ t.faultCode = 5)
    ∧ (offBoundary 5).cfg = (room 0 5).cfg ∧ (offBoundary 5).data = (room 0 5).data :=
  ⟨⟨_, rfl, rfl⟩, ⟨_, rfl, rfl⟩, rfl, rfl⟩

/-- The ends of the ranges of k = 0 and k = 2, and a code that starts with itself. -/
theorem test_witness_UeCodeProperties :
    (2 ^ 0 - 1 ≤ 0 ∧ 0 ≤ 2 ^ (0 + 1) - 2) ∧ (2 ^ 2 - 1 ≤ 3 ∧ 6 ≤ 2 ^ (2 + 1) - 2) ∧ ueCode 3 <+: ueCode 3 := by decide

/-- SeMapIsZigzag and SeCodeRoundTrip: both ends of the domain. -/
theorem test_witness_SeDomain :
    (-(2 ^ 30 - 1) ≤ (0xC0000001 : Word).toInt ∧ (0xC0000001 : Word).toInt ≤ 2 ^ 30)
    ∧ (-(2 ^ 30 - 1) ≤ (0x40000000 : Word).toInt ∧ (0x40000000 : Word).toInt ≤ 2 ^ 30) := by decide

/-- N = 32 with exactly four bytes of room, N = 0, N = 33, and N = 32 with three bytes of room. -/
theorem test_witness_PutBitsAppendsLowBits :
    (room 4 0xDEADBEEF).Inv ∧ (room 4 0xDEADBEEF).fits [(true, lowBits 0xDEADBEEF 32)] ∧ 32 < 33 ∧ 33 ≤ 63
    ∧ ¬(room 3 0xDEADBEEF).fits [(true, lowBits 0xDEADBEEF 32)] := by decide +kernel

/-- The longest code under the default, one that is too long under a smaller UE_MAX_CODE_BITS, and no room. -/
theorem test_witness_PutUeAppendsTheCode :
    (empty 0xFFFFFFFE).Inv ∧ (empty 0xFFFFFFFE).data ≠ 0xFFFFFFFF ∧ (ueCode 0xFFFFFFFE).length ≤ Config.default.ueMaxCodeBits
    ∧ (empty 0xFFFFFFFE).fits [(true, ueCode 0xFFFFFFFE)] ∧ 62 < (ueCode 0xFFFFFFFE).length
    ∧ ¬(room 7 0xFFFFFFFE).fits [(true, ueCode 0xFFFFFFFE)] := by decide +kernel

/-- Both ends of the domain, the values just outside it, and no room. -/
theorem test_witness_PutSeAppendsTheCode :
    (empty 0x40000000).Inv ∧ (empty 0x40000000).data.toInt ≤ 2 ^ 30
    ∧ (ueCode (zigzag (empty 0x40000000).data.toInt)).length ≤ Config.default.ueMaxCodeBits
    ∧ (empty 0x40000000).fits [(true, ueCode (zigzag (empty 0x40000000).data.toInt))]
    ∧ (empty 0xC0000001).fits [(true, ueCode (zigzag (empty 0xC0000001).data.toInt))]
    ∧ ¬(room 7 0x40000000).fits [(true, ueCode (zigzag (room 7 0x40000000).data.toInt))]
    ∧ (0xC0000000 : Word).toInt < -(2 ^ 30 - 1) ∧ 2 ^ 30 < (0x40000001 : Word).toInt := by decide +kernel

/-- Four bytes of room, three, and a pending bit. -/
theorem test_witness_PutStartCodeWritesItRaw :
    (room 4 0).Inv ∧ (room 4 0).acc.pending = [] ∧ (room 4 0).cursor + 4 ≤ (room 4 0).outEnd.toNat
    ∧ (room 3 0).outEnd.toNat < (room 3 0).cursor + 4 ∧ (offBoundary 0).acc.pending ≠ [] := by decide +kernel

/-- One byte of room and none. -/
theorem test_witness_PutTrailingAppendsStopAndZeros :
    (room 1 0).fits [(true, true :: List.replicate 7 false)] ∧ ¬(room 0 0).fits [(true, true :: List.replicate 7 false)] := by
  decide +kernel

/-- At L mod 8 = 0 and at L mod 8 = 7. -/
theorem test_witness_TrailingEndsOnAByteBoundary :
    (∃ t, exec .putTrailing (empty 0) = .next t ∧ t.fault = false)
    ∧ (withAcc ⟨0, List.replicate 7 true, 0, 0⟩ 0).Inv
    ∧ (∃ t, exec .putTrailing (withAcc ⟨0, List.replicate 7 true, 0, 0⟩ 0) = .next t ∧ t.fault = false) :=
  ⟨⟨_, rfl, rfl⟩, by decide +kernel, ⟨_, rfl, rfl⟩⟩

theorem test_witness_PutAudAppendsTheDelimiter :
    (room 1 0).fits [(true, tableBits (audTable Config.default))]
    ∧ ¬(room 0 0).fits [(true, tableBits (audTable Config.default))] := by decide +kernel

/-- mb 1 by 1, each zero operand, and no room. -/
theorem test_witness_PutSpsAppendsTheParameterSet :
    (empty 0x00010001).Inv ∧ 1 ≤ (0x00010001 : Word).toNat % 65536 ∧ 1 ≤ (0x00010001 : Word).toNat / 65536
    ∧ (empty 0x00010001).fits [(true, tableBits (spsTable Config.default 1 1))]
    ∧ ¬(room 4 0x00010001).fits [(true, tableBits (spsTable Config.default 1 1))]
    ∧ (0x000F0000 : Word).toNat % 65536 = 0 ∧ (0x00000005 : Word).toNat / 65536 = 0 := by decide +kernel

theorem test_witness_PutPpsAppendsTheParameterSet :
    (room 3 0).fits [(true, tableBits (ppsTable Config.default))]
    ∧ ¬(room 2 0).fits [(true, tableBits (ppsTable Config.default))] := by decide +kernel

theorem test_witness_PutSliceHeaderAppendsTheHeader :
    (room 4 0).fits [(true, tableBits (sliceTable Config.default))]
    ∧ ¬(room 3 0).fits [(true, tableBits (sliceTable Config.default))] := by decide +kernel

/-- Exactly enough room for a first frame of 20 by 15 and for any other frame, and one byte less. -/
theorem test_witness_PutFrameHeadersAppendsTheSequence :
    (room 34 0x000F0014).Inv ∧ (room 34 0x000F0014).fits (frameSegments true Config.default true 20 15)
    ∧ ¬(room 33 0x000F0014).fits (frameSegments true Config.default true 20 15)
    ∧ (room 14 0).fits (frameSegments true Config.default false 0 0)
    ∧ ¬(room 13 0).fits (frameSegments true Config.default false 0 0)
    ∧ (empty 5).data.toNat / 65536 = 0 ∧ (offBoundary 5).acc.pending ≠ [] := by decide +kernel

theorem test_witness_FrameHeadersEqualThePrimitives :
    (empty 0x000F0014).acc.pending.length ≤ 7 ∧ (empty 0x000F0014).fault = false
    ∧ (∃ t, exec (.putFrameHeaders true) (empty 0x000F0014) = .next t ∧ t.fault = false) :=
  ⟨by decide, rfl, ⟨_, rfl, by decide +kernel⟩⟩

/-- A command and an engine run that write 00 00 03, one that writes after two zero bytes, and one whose first byte is
the second zero. -/
theorem test_witness_NoStartCodeIsEmulated :
    (empty 0).epbDis = false
    ∧ leaves (exec (.putBits 24) (empty 0)) [0x00, 0x00, 0x03, 0x00] [] 32 = true
    ∧ leaves (step (before (.engineRun (List.replicate 24 false) (some 0)) (empty 0)))
      [0x00, 0x00, 0x03, 0x00] [] 32 = true
    ∧ leaves (exec (.putBits 8) (withAcc ⟨2, [], 2, 0⟩ 0)) [0x03, 0x00] [] 32 = true
    ∧ leaves (exec (.putBits 16) (withAcc ⟨1, [], 1, 0⟩ 0)) [0x00, 0x03, 0x00] [] 32 = true := by
  decide +kernel

theorem test_witness_NopChangesNothing :
    (before (.regWrite 0x00 4 0) (empty 5)).inputs = .regWrite 0x00 4 0 :: [] ∧ (0x00000100 : Word).toNat % 256 = 0
    ∧ (0x00000100 : Word) ≠ 0 := by decide

/-- The corners of the domain and the sizes just outside it. -/
theorem test_witness_GeoComputeLatchesTheGeometry :
    ((0x00100010 : Word).toNat % 65536 = 16 ∧ (0x00100010 : Word).toNat / 65536 = 16)
    ∧ ((0x04380780 : Word).toNat % 65536 = 1920 ∧ (0x04380780 : Word).toNat / 65536 = 1080)
    ∧ (0x0010000F : Word).toNat % 65536 < 16 ∧ 1920 < (0x04380781 : Word).toNat % 65536
    ∧ (0x000F0010 : Word).toNat / 65536 < 16 ∧ 1080 < (0x04390780 : Word).toNat / 65536 := by decide

theorem test_witness_GeometryRelations :
    (∃ t, exec .geoCompute (empty 0x04380780) = .next t ∧ t.fault = false) ∧ (empty 5).Inv ∧ (empty 5).geoValid = false :=
  ⟨⟨_, rfl, rfl⟩, by decide +kernel, rfl⟩

/-- GeometryRanges: both settings of HALF_DIM_ROUND, and both corners of the domain. -/
theorem test_witness_GeometryRanges :
    Config.default.asStated ∧ { Config.default with halfDimRound := .ceil }.asStated
    ∧ (16 ≤ 16 ∧ 16 ≤ 1920 ∧ 16 ≤ 1080) ∧ (16 ≤ 1920 ∧ 1920 ≤ 1920 ∧ 16 ≤ 1080 ∧ 1080 ≤ 1080) := by
  decide

theorem test_witness_GeoClearZeroesTheGeometry : (empty 5).Inv ∧ (empty 5).geoValid = false := by decide +kernel

theorem test_witness_CommandFrame : ∃ t, exec .putAud (empty 5) = .next t := ⟨_, rfl⟩

/-- A CMD write and the reset event that change the geometry. -/
theorem test_witness_GeometryHasTwoWriters :
    (∃ t, step (before (.regWrite 0x00 4 0x10) (empty 0x00100010)) = .next t ∧ t.geoValid ≠ (empty 0x00100010).geoValid)
    ∧ (∃ t, step (before .openEngine withGeometry) = .next t
        ∧ t.geoValid ≠ true) :=
  ⟨⟨_, rfl, by decide +kernel⟩, ⟨_, rfl, by decide⟩⟩

/-- The three clauses at their ends: below OUT_START, at OUT_END, below the cursor. -/
theorem test_witness_WritesStayInTheBuffer :
    (∃ t, step (before (.regWrite 0x00 4 0x06) (room 1 5)) = .next t)
    ∧ 0x0FFF < (room 1 5).outStart.toNat ∧ (room 1 5).outEnd.toNat ≤ 0x1001
    ∧ 0x1000 < { room 1 5 with acc := ⟨1, [], 0, 0⟩ }.cursor :=
  ⟨⟨_, rfl⟩, by decide +kernel, by decide +kernel, by decide +kernel⟩

theorem test_witness_CommandsDoNotReadMemory :
    (empty 5).acc.pending.length ≤ 7 ∧ ∃ t, exec .putAud (empty 5) = .next t := ⟨by decide, ⟨_, rfl⟩⟩

/-- A wait equal to its bound. -/
theorem test_witness_EngineRunAppendsTheSlice :
    (under (boundedWait 9) 5).Inv
    ∧ (before (.engineRun [true] (some 9)) (empty 5)).inputs = .engineRun [true] (some 9) :: [] ∧ 9 ≤ 9
    ∧ (empty 5).fits [(true, [true])] := by decide +kernel

/-- No completion, and one just after the bound. -/
theorem test_witness_EngineHangStops :
    (before (.engineRun [] none) (empty 5)).inputs = .engineRun [] none :: []
    ∧ (under (boundedWait 9) 5).cfg.engineTimeout = some 9 ∧ 9 < 10 := by decide

/-- The first and the last byte of the flushed range. -/
theorem test_witness_FlushedBytesAreRead :
    { empty 5 with mem := [(0x1000, 9)], inputs := [.flushCache 0x1000 1, .memRead 0x1000] }.inputs
      = .flushCache 0x1000 1 :: .memRead 0x1000 :: []
    ∧ (0x1000 : Word).toNat ≤ (0x1000 : Word).toNat ∧ (0x1000 : Word).toNat < (0x1000 : Word).toNat + 1
    ∧ Memory.read [(0x1000, 9)] 0x1000 = some 9 := by decide

theorem test_witness_ResetValues : (before .openEngine faulted).inputs = .openEngine :: [] := by decide

theorem test_witness_StepKeepsTheInvariant :
    (before (.regWrite 0x00 4 0x06) (empty 5)).Inv ∧ ∃ t, step (before (.regWrite 0x00 4 0x06) (empty 5)) = .next t :=
  ⟨by decide +kernel, ⟨_, rfl⟩⟩

theorem test_witness_ReachableStatesMeetR56 : Reachable State.reset := ⟨Config.default, [], 0, rfl⟩

end Sys2Proof.Machine.Test
end

/-! The statements of the state's family (10_state.md): the register window, reset, the frame of the commands, and the
invariant on every step and every reachable state. -/

namespace Sys2Proof.Machine

/-! ## The invariant on every step and every run -/

/-- Taking an access off the queue keeps the invariant, which speaks of no access. -/
theorem inv_withInputs {s : State} (h : s.Inv) (rest : List HostAccess) : { s with inputs := rest }.Inv := h

/-- What the host was given is no part of the invariant. -/
theorem inv_withReply {s : State} (h : s.Inv) (r : HostReply) : { s with reply := r }.Inv := h

/-- Settles O53: each way a step can go (`step_cases`) keeps the invariant by its own lemma. -/
theorem stepKeepsTheInvariant : Obligations.StepKeepsTheInvariant := by
  unfold Obligations.StepKeepsTheInvariant
  intro s t hinv hstep
  rcases step_cases hstep with ⟨-, rfl⟩ | ⟨a, rest, -, hact⟩
  · exact hinv
  · have htaken := inv_withInputs hinv rest
    rcases hact with ⟨offset, v, -, -, rfl⟩ | ⟨w, -, hrun⟩ | ⟨offset, -, rfl⟩ | ⟨addr, -, rfl⟩
      | ⟨base, size, -, rfl⟩ | ⟨slice, wait, -, -, rfl⟩ | ⟨-, rfl⟩
    · exact inv_writeReg htaken offset v
    · exact inv_runWord htaken hrun
    · exact inv_withReply htaken _
    · exact inv_hostMemRead htaken addr
    · exact inv_flushRange htaken base size
    · exact inv_engineAppend htaken slice
    · exact inv_resetEvent htaken

/-- Settles O52: every field the invariant reads is empty or zero, whatever the parameters and the host's accesses. -/
theorem resetMeetsTheInvariant : Obligations.ResetMeetsTheInvariant := by
  unfold Obligations.ResetMeetsTheInvariant
  intro cfg inputs
  have hacc : Acc.empty.inRange cfg := ⟨Nat.zero_le _, Nat.zero_le _, le_rfl, fun _ => rfl⟩
  have hfault : State.reset.faultFieldsAgree := by decide
  have hgeo : { State.reset with cfg := cfg }.geoAgrees := ⟨fun _ => rfl, fun hv => nomatch hv⟩
  have hmem : Memory.wf State.reset.mem := by decide
  have hdirty : State.reset.dirtyAgrees := by decide
  exact ⟨hacc, hfault, hgeo, hmem, hdirty⟩

/-- A predicate that every step keeps holds at the end of a run that starts in it. -/
theorem run_keeps {P : State → Prop} (hstep : ∀ s t, P s → step s = .next t → P t) {n : Nat} {s t : State}
    (hs : P s) (hrun : Sys2Proof.core.run n s = .next t) : P t := by
  induction n generalizing s with
  | zero => cases hrun; exact hs
  | succ n ih =>
    cases h : step s with
    | next u => exact ih (hstep s u hs h) ((run_succ n h).symm.trans hrun)
    | fault r => simp [Host.Core.run, show Sys2Proof.core.step s = .fault r from h] at hrun
    | refused r => simp [Host.Core.run, show Sys2Proof.core.step s = .refused r from h] at hrun

/-- The invariant holds in every reachable state: O52 at reset, O53 along the run. -/
theorem inv_of_reachable {t : State} (h : Reachable t) : t.Inv := by
  obtain ⟨cfg, inputs, n, hrun⟩ := h
  exact run_keeps stepKeepsTheInvariant (resetMeetsTheInvariant cfg inputs) hrun

/-- Settles O54: R56's clauses are parts of the invariant, which every reachable state meets. -/
theorem reachableStatesMeetR56 : Obligations.ReachableStatesMeetR56 := by
  unfold Obligations.ReachableStatesMeetR56
  intro t ht
  obtain ⟨⟨hpending, hzrun, -, -⟩, ⟨hcode, hcmd, -⟩, -, -, -⟩ := inv_of_reachable ht
  exact ⟨hpending, hzrun, hcode, hcmd⟩

/-! ## The frame of the commands -/

/-- What holds of the state, of the state with a fault of this command raised, and of every result of the effect, holds
of what the execution frame answers. -/
theorem execute_keeps {P : State → Prop} {i : Instr} {e : State → Option State} {s : State} (hs : P s)
    (hraise : ∀ k, P (raiseFault k (encode i) s)) (heffect : ∀ t, e s = some t → P t) (c : Option FaultCode)
    (al : Bool) : P (execute i c al e s) := by
  rcases execute_cases i c al e s with ⟨-, h⟩ | ⟨-, k, h⟩ | ⟨-, -, -, t, ht, h⟩ <;> rw [h]
  · exact hs
  · exact hraise k
  · exact heffect t ht

/-- What a command leaves of the state it runs on: all but the accumulator, memory, the stale addresses, the fault
fields and the geometry; and the geometry too unless it is one of the two commands that write it (R190). -/
structure CommandKeeps (i : Instr) (s t : State) : Prop where
  frame : t = { s with
    acc := t.acc, mem := t.mem, dirty := t.dirty, fault := t.fault, faultCode := t.faultCode, faultCmd := t.faultCmd,
    geo := t.geo, geoValid := t.geoValid }
  geometry : i ≠ .geoCompute → i ≠ .geoClear → t.geo = s.geo ∧ t.geoValid = s.geoValid

theorem commandKeeps_self (i : Instr) (s : State) : CommandKeeps i s s := ⟨rfl, fun _ _ => ⟨rfl, rfl⟩⟩

theorem commandKeeps_raiseFault (i : Instr) (s : State) (k : FaultCode) (w : Word) :
    CommandKeeps i s (raiseFault k w s) := ⟨rfl, fun _ _ => ⟨rfl, rfl⟩⟩

theorem commandKeeps_emission {i : Instr} {s t : State} {emit : State → Stream → Stream}
    (h : emission emit s = some t) : CommandKeeps i s t := by
  rw [emission_frame h]
  exact ⟨rfl, fun _ _ => ⟨rfl, rfl⟩⟩

theorem commandKeeps_execute {i : Instr} {s : State} {e : State → Option State}
    (heffect : ∀ t, e s = some t → CommandKeeps i s t) (c : Option FaultCode) (al : Bool) :
    CommandKeeps i s (execute i c al e s) :=
  execute_keeps (commandKeeps_self i s) (fun k => commandKeeps_raiseFault i s k _) heffect c al

/-- Every command, with any number of pending bits, keeps what `CommandKeeps` says. -/
theorem commandKeeps_exec {i : Instr} {s t : State} (h : exec i s = .next t) : CommandKeeps i s t := by
  by_cases hb : emitsBits i = true
  · obtain ⟨c, emit, he, -⟩ := exec_shape i hb s
    cases he.symm.trans h
    exact commandKeeps_execute (fun _ => commandKeeps_emission) c _
  · cases i <;> simp only [emitsBits, not_true_eq_false] at hb
    case nop => cases h; exact commandKeeps_execute (fun _ ht => by cases ht; exact commandKeeps_self _ s) none false
    case vleReset =>
      cases h
      exact commandKeeps_execute (fun _ ht => by cases ht; exact ⟨rfl, fun _ _ => ⟨rfl, rfl⟩⟩) none false
    case geoCompute =>
      cases h
      exact commandKeeps_execute (fun _ ht => by cases ht; exact ⟨rfl, fun hne => absurd rfl hne⟩) _ false
    case geoClear =>
      cases h
      exact commandKeeps_execute (fun _ ht => by cases ht; exact ⟨rfl, fun _ hne => absurd rfl hne⟩) none false

/-- Settles O44: each clause is a field of the frame that every command keeps. -/
theorem commandFrame : Obligations.CommandFrame := by
  unfold Obligations.CommandFrame
  intro i s t h
  obtain ⟨hframe, hgeo⟩ := commandKeeps_exec h
  have kept {α : Type} (field : State → α) := congrArg field hframe
  exact ⟨kept State.data, kept State.epbDis, kept State.outStart, kept State.outEnd, kept State.cfg,
    kept State.inputs, kept State.reply, kept State.freeCount, hgeo⟩

/-! ## Accesses to the register window -/

/-- The defined form of a register access (R51). -/
theorem checkAccess_eq_none_iff (cfg : Config) (offset bytes : Nat) :
    checkAccess cfg offset bytes = none ↔ bytes = 4 ∧ offset % 4 = 0 ∧ offset < cfg.regWindowSize := by
  rw [checkAccess]
  split
  · simp [*]
  · split
    · simp [*]
    · split <;> simp_all

/-- What a step does with a register write at the head of the queue. -/
theorem step_regWrite {s : State} {offset bytes : Nat} {v : Word} {rest : List HostAccess}
    (hi : s.inputs = .regWrite offset bytes v :: rest) :
    (∀ r, checkAccess s.cfg offset bytes = some r → step s = .refused r)
    ∧ (checkAccess s.cfg offset bytes = none → offset = cmdOffset → step s = runWord v { s with inputs := rest })
    ∧ (checkAccess s.cfg offset bytes = none → offset ≠ cmdOffset →
        step s = .next (writeReg offset v { s with inputs := rest })) := by
  refine ⟨fun r hr => ?_, fun hc h0 => ?_, fun hc h0 => ?_⟩
  · simp only [step, nextAccess, hi, busAction, hr]
  · simp only [step, nextAccess, hi, busAction, hc, if_pos h0]
  · simp only [step, nextAccess, hi, busAction, hc, if_neg h0]

/-- What a step does with a register read at the head of the queue. -/
theorem step_regRead {s : State} {offset bytes : Nat} {rest : List HostAccess}
    (hi : s.inputs = .regRead offset bytes :: rest) :
    (∀ r, checkAccess s.cfg offset bytes = some r → step s = .refused r)
    ∧ (checkAccess s.cfg offset bytes = none →
        step s = .next { s with inputs := rest, reply := .reg (readReg offset { s with inputs := rest }) }) := by
  refine ⟨fun r hr => ?_, fun hc => ?_⟩
  · simp only [step, nextAccess, hi, busAction, hr]
  · simp only [step, nextAccess, hi, busAction, hc]

theorem exists_exec_eq_next (i : Instr) (s : State) : ∃ t, exec i s = .next t := by
  cases i <;> exact ⟨_, rfl⟩

theorem runWord_of_ok {w : Word} {i : Instr} (h : decode w = .ok i) (s : State) : runWord w s = exec i s := by
  rw [runWord, h]

theorem runWord_of_error {w : Word} {e : DecodeError} (h : decode w = .error e) (s : State) :
    runWord w s = .next (executeIllegal w s) := by
  rw [runWord, h]

/-- Every word, with a command or without one, answers a next state. -/
theorem exists_runWord_eq_next (w : Word) (s : State) : ∃ t, runWord w s = .next t := by
  cases h : decode w with
  | ok i => rw [runWord_of_ok h]; exact exists_exec_eq_next i s
  | error e => exact ⟨_, runWord_of_error h s⟩

/-- Settles O10: an access is refused exactly where `checkAccess` names a refusal, and a write that is not refused
either runs a command word, which always completes, or writes a register. -/
theorem undefinedAccessesAreRefused : Obligations.UndefinedAccessesAreRefused := by
  unfold Obligations.UndefinedAccessesAreRefused
  intro s offset bytes v rest
  have hform := checkAccess_eq_none_iff s.cfg offset bytes
  constructor
  · intro hbad
    obtain ⟨r, hr⟩ : ∃ r, checkAccess s.cfg offset bytes = some r :=
      Option.ne_none_iff_exists'.1 fun hc => by have := hform.1 hc; omega
    exact ⟨fun hi => ⟨r, (step_regWrite hi).1 r hr⟩, fun hi => ⟨r, (step_regRead hi).1 r hr⟩⟩
  · intro hbytes halign hwindow
    have hc := hform.2 ⟨hbytes, halign, hwindow⟩
    refine ⟨fun hi => ?_, fun hi => ⟨_, (step_regRead hi).2 hc⟩⟩
    obtain ⟨-, hcommand, hwrite⟩ := step_regWrite hi
    by_cases h0 : offset = cmdOffset
    · rw [hcommand hc h0]; exact exists_runWord_eq_next v _
    · exact ⟨_, hwrite hc h0⟩

/-- Settles O8: the step is `runWord` of the word written, on the state without the access. -/
theorem stepRunsTheDecodedCommand : Obligations.StepRunsTheDecodedCommand := by
  unfold Obligations.StepRunsTheDecodedCommand
  intro s w rest hcfg hi
  have hstep := (step_regWrite hi).2.1 (checkAccess_window hcfg rfl (by decide)) rfl
  refine ⟨fun i hd => hstep.trans (runWord_of_ok hd _), fun e hd hf => ?_⟩
  have hraise : executeIllegal w { s with inputs := rest } = raiseFault .illegalCmd w { s with inputs := rest } := by
    simp only [executeIllegal, hf, Bool.false_eq_true, if_false]
  rw [hstep, runWord_of_error hd, hraise]
  rfl

/-! ## Register reads -/

/-- A read of a register whose value is known changes nothing but the reply (R80). -/
theorem step_rd_of_readReg {s : State} {offset : Nat} {v : Word} {rest : List HostAccess} (hcfg : s.cfg.asStated)
    (halign : offset % 4 = 0) (hwindow : offset < 0x100) (hv : readReg offset s = v)
    (hi : s.inputs = .regRead offset 4 :: rest) : step s = .next { s with inputs := rest, reply := .reg v } := by
  have hqueue : readReg offset { s with inputs := rest } = readReg offset s := rfl
  rw [step_rd hcfg halign hwindow hi, hqueue, hv]

theorem readReg_outputBufSize {s : State} (hcfg : s.cfg.asStated) : readReg 0x48 s = 0x00100000 := by
  simp only [readReg, hcfg, FixedParams.stated]
  rfl

theorem readReg_mbinfoBufSize {s : State} (hcfg : s.cfg.asStated) : readReg 0x4C s = 0x00001000 := by
  simp only [readReg, hcfg, FixedParams.stated]
  rfl

/-- Settles O11: row by row of the register map, the two constants from the stated parameters and every other row by the
definition of `readReg`. -/
theorem registerReads : Obligations.RegisterReads := by
  unfold Obligations.RegisterReads
  intro s offset v rest hcfg hmem hi
  have hrow : offset % 4 = 0 ∧ offset < 0x100 ∧ readReg offset s = v := by
    simp only [List.mem_cons, Prod.mk.injEq, List.not_mem_nil, or_false] at hmem
    rcases hmem with ⟨rfl, rfl⟩ | ⟨rfl, rfl⟩ | ⟨rfl, rfl⟩ | ⟨rfl, rfl⟩ | ⟨rfl, rfl⟩ | ⟨rfl, rfl⟩ | ⟨rfl, rfl⟩
      | ⟨rfl, rfl⟩ | ⟨rfl, rfl⟩ | ⟨rfl, rfl⟩ | ⟨rfl, rfl⟩ | ⟨rfl, rfl⟩ | ⟨rfl, rfl⟩ | ⟨rfl, rfl⟩
      | ⟨rfl, rfl⟩ | ⟨rfl, rfl⟩ | ⟨rfl, rfl⟩
    iterate 15 exact ⟨rfl, by decide, rfl⟩
    · exact ⟨rfl, by decide, readReg_outputBufSize hcfg⟩
    · exact ⟨rfl, by decide, readReg_mbinfoBufSize hcfg⟩
  obtain ⟨halign, hwindow, hv⟩ := hrow
  exact step_rd_of_readReg hcfg halign hwindow hv hi

theorem statusWord_fault (s : State) : (statusWord s).getLsbD 0 = s.fault := by
  simp only [statusWord, BitVec.getLsbD_append]
  simp

theorem statusWord_geoValid (s : State) : (statusWord s).getLsbD 1 = s.geoValid := by
  simp only [statusWord, BitVec.getLsbD_append]
  simp

theorem statusWord_faultCode (s : State) : (statusWord s).extractLsb' 8 4 = s.faultCode := by
  refine BitVec.eq_of_getLsbD_eq fun k hk => ?_
  have hbool : ¬8 + k < 1 := by omega
  simp only [statusWord, BitVec.getLsbD_extractLsb', BitVec.getLsbD_append, hk, hbool]
  simp [hk]

theorem ctrlWord_epbDis (s : State) : (ctrlWord s).getLsbD 0 = s.epbDis := by
  simp only [ctrlWord, BitVec.getLsbD_append]
  simp

/-- Settles O12: the replies are `statusWord` and `ctrlWord`, whose fields stand in the lemmas above. -/
theorem statusAndCtrlReads : Obligations.StatusAndCtrlReads := by
  unfold Obligations.StatusAndCtrlReads
  intro s rest hcfg
  constructor <;> intro hi
  · exact ⟨statusWord s, step_rd_of_readReg hcfg rfl (by decide) rfl hi, statusWord_fault s, statusWord_geoValid s,
      statusWord_faultCode s⟩
  · exact ⟨ctrlWord s, step_rd_of_readReg hcfg rfl (by decide) rfl hi, ctrlWord_epbDis s⟩

/-- VLE_LEN as a number (R35); with no more EPBs than bytes the difference is a natural number. -/
theorem vleLen_toNat {s : State} (h : s.acc.nepb ≤ s.acc.nbytes) :
    (vleLen s).toNat
      = (8 * (s.acc.nbytes - if s.cfg.epbInLen then 0 else s.acc.nepb) + s.acc.pending.length) % 2 ^ 32 := by
  rw [vleLen, BitVec.toNat_ofInt]
  split <;> omega

/-- Settles O13: `vleLen_toNat` under each setting, its premise being part of the invariant. -/
theorem vleLenRead : Obligations.VleLenRead := by
  unfold Obligations.VleLenRead
  intro s rest hcfg hinv hi
  obtain ⟨⟨-, -, hnepb, -⟩, -⟩ := hinv
  have hlen := vleLen_toNat hnepb
  refine ⟨vleLen s, step_rd_of_readReg hcfg rfl (by decide) rfl hi, fun hin => ?_, fun hout => ?_⟩
  · rw [hlen, hin]; rfl
  · rw [hlen, hout]; rfl

/-! ## Register writes -/

/-- Settles O14: each offset is in the window and is not CMD, so the step is `writeReg`, which answers by its row. -/
theorem registerWrites : Obligations.RegisterWrites := by
  unfold Obligations.RegisterWrites
  intro s offset v rest hcfg hi
  have hwrite (halign : offset % 4 = 0) (hwindow : offset < 0x100) (h0 : offset ≠ 0) :=
    step_wr hcfg halign hwindow h0 hi
  refine ⟨?_, ?_, ?_, ?_, fun hmem => ?_⟩
  iterate 4
    · rintro rfl
      exact hwrite rfl (by decide) (by decide)
  · simp only [List.mem_cons, List.not_mem_nil, or_false] at hmem
    rcases hmem with rfl | rfl | rfl | rfl | rfl | rfl | rfl | rfl | rfl | rfl | rfl | rfl | rfl | rfl <;>
      exact hwrite rfl (by decide) (by decide)

/-! ## Reset -/

/-- The fields for which R55 states a value have it. -/
structure State.HasResetValues (t : State) : Prop where
  acc : t.acc = Acc.empty
  epbDis : t.epbDis = false
  fault : t.fault = false
  faultCode : t.faultCode = 0
  faultCmd : t.faultCmd = 0
  geoValid : t.geoValid = false
  geo : t.geo = GeoRegs.zero

theorem hasResetValues_reset : State.reset.HasResetValues := ⟨rfl, rfl, rfl, rfl, rfl, rfl, rfl⟩

theorem hasResetValues_resetEvent (s : State) : (resetEvent s).HasResetValues := ⟨rfl, rfl, rfl, rfl, rfl, rfl, rfl⟩

theorem vleLen_of_acc_empty {s : State} (h : s.acc = Acc.empty) : vleLen s = 0 := by
  rw [vleLen, h]
  cases s.cfg.epbInLen <;> rfl

/-- Settles O51: the reset state and the result of the reset event both have R55's values, and the event keeps memory,
the accesses and the parameters by the `resetEvent` laws. -/
theorem resetValues : Obligations.ResetValues := by
  unfold Obligations.ResetValues
  constructor
  · intro t hcfg ht
    have hreset : t.HasResetValues := by
      rcases ht with rfl | ⟨s, rest, hi, hstep⟩
      · exact hasResetValues_reset
      · cases (step_openEngine hi).symm.trans hstep
        exact hasResetValues_resetEvent _
    obtain ⟨hacc, hepb, hfault, hcode, hcmd, hvalid, hgeo⟩ := hreset
    rw [vleLen_of_acc_empty hacc, readReg_outputBufSize hcfg, readReg_mbinfoBufSize hcfg, hacc, hgeo]
    exact ⟨rfl, rfl, rfl, rfl, hepb, hfault, hvalid, hcode, hcmd, rfl, rfl, rfl, rfl, rfl, rfl, rfl, rfl, rfl, rfl,
      rfl, rfl, rfl⟩
  · intro s rest hi
    exact ⟨_, step_openEngine hi, rfl, rfl, rfl⟩

end Sys2Proof.Machine

/-! The statements of the memory family (20_memory.md): where a step writes, that no command reads memory, emulation
prevention, and what a CPU read gives after a flush. -/

namespace Sys2Proof.Machine

/-! ## CPU reads after a flush -/

theorem step_flushCache {s : State} {base : Word} {size : Nat} {rest : List HostAccess}
    (hi : s.inputs = .flushCache base size :: rest) :
    step s = .next (flushRange base size { s with inputs := rest }) := by
  simp only [step, nextAccess, hi, busAction]

/-- A CPU read of an address that is not stale and where memory holds a byte gives that byte (R83). -/
theorem step_memRead_of_not_dirty {s : State} {addr : Word} {b : Byte} {rest : List HostAccess}
    (hi : s.inputs = .memRead addr :: rest) (hclean : addr.toNat ∉ s.dirty)
    (hb : Memory.read s.mem addr.toNat = some b) :
    step s = .next { s with inputs := rest, reply := .mem b } := by
  simp only [step, nextAccess, hi, busAction, hostMemRead, if_neg hclean, hb]

/-- Settles O50: no address of the flushed range stays in `dirty`, so the read is one of a byte that is not stale. -/
theorem flushedBytesAreRead : Obligations.FlushedBytesAreRead := by
  unfold Obligations.FlushedBytesAreRead
  intro s base size addr b rest hi hlow hhigh hb
  have hclean : addr.toNat ∉ removeRange s.dirty base.toNat size :=
    fun hmem => ((mem_removeRange _ _ _ _).1 hmem).2 ⟨hlow, hhigh⟩
  exact ⟨_, step_flushCache hi, rfl, step_memRead_of_not_dirty rfl hclean hb⟩

/-! ## Where a step writes -/

/-- Memory after a commit of a run of bytes: each byte of the run below OUT_END at its address from the cursor on, and
elsewhere what was there (R71, R75). -/
theorem read_commit_after (s : State) (w : Written) (a : Nat) :
    Memory.read (s.commit (s.stream.after s.port w)).mem a
      = if s.cursor ≤ a ∧ a < s.cursor + w.bytes.length ∧ a < s.outEnd.toNat then w.bytes[a - s.cursor]?
        else Memory.read s.mem a :=
  writeRun_read s.port s.acc.nbytes w.bytes (s.mem, s.dirty, false) a

/-- The addresses no step may write: outside [OUT_START, OUT_END), or below the cursor (R75, R89). -/
def State.protects (s : State) (a : Nat) : Prop := a < s.outStart.toNat ∨ s.outEnd.toNat ≤ a ∨ a < s.cursor

theorem read_commit_after_of_protects {s : State} {a : Nat} (ha : s.protects a) (w : Written) :
    Memory.read (s.commit (s.stream.after s.port w)).mem a = Memory.read s.mem a := by
  have hcursor : s.cursor = s.outStart.toNat + s.acc.nbytes := rfl
  rw [read_commit_after, if_neg]
  rintro ⟨hlow, -, hlimit⟩
  rcases ha with h | h | h <;> omega

theorem read_exec_of_protects {i : Instr} {s t : State} {a : Nat} (hp : s.acc.pending.length ≤ 7)
    (ha : s.protects a) (h : exec i s = .next t) : Memory.read t.mem a = Memory.read s.mem a := by
  rcases exec_cases i s hp with ⟨-, h'⟩ | ⟨-, k, h'⟩ | ⟨-, u, h', heffect⟩ <;> cases h'.symm.trans h
  · rfl
  · rfl
  · cases heffect with
    | emit _ _ => exact read_commit_after_of_protects ha _
    | nop _ | vleReset _ | geoCompute _ _ | geoClear _ => rfl

theorem executeIllegal_mem (w : Word) (s : State) : (executeIllegal w s).mem = s.mem := by
  rw [executeIllegal]; split <;> rfl

theorem read_runWord_of_protects {w : Word} {s t : State} {a : Nat} (hp : s.acc.pending.length ≤ 7)
    (ha : s.protects a) (h : runWord w s = .next t) : Memory.read t.mem a = Memory.read s.mem a := by
  cases hd : decode w with
  | ok i => exact read_exec_of_protects hp ha ((runWord_of_ok hd s).symm.trans h)
  | error e => cases (runWord_of_error hd s).symm.trans h; rw [executeIllegal_mem]

theorem read_engineAppend_of_protects {s : State} {a : Nat} (hp : s.acc.pending.length ≤ 7) (ha : s.protects a)
    (slice : Bits) : Memory.read (engineAppend slice s).mem a = Memory.read s.mem a := by
  rw [engineAppend_eq slice hp, read_commit_after_of_protects ha]

theorem writeReg_mem (offset : Nat) (v : Word) (s : State) : (writeReg offset v s).mem = s.mem := by
  unfold writeReg
  split
  case h_5 => split <;> rfl
  all_goals rfl

theorem hostMemRead_mem (addr : Word) (s : State) : (hostMemRead addr s).mem = s.mem := by
  rw [hostMemRead]; split <;> rfl

/-- Settles O46: of the ways a step can go (`step_cases`) only a command word and an engine run write memory, and both
write a run of bytes from the cursor on that stops at OUT_END. -/
theorem writesStayInTheBuffer : Obligations.WritesStayInTheBuffer := by
  unfold Obligations.WritesStayInTheBuffer
  intro s t a hp hstep ha
  rcases step_cases hstep with ⟨-, rfl⟩ | ⟨_, rest, -, hact⟩
  · rfl
  · rcases hact with ⟨offset, v, -, -, rfl⟩ | ⟨w, -, hrun⟩ | ⟨offset, -, rfl⟩ | ⟨addr, -, rfl⟩
      | ⟨base, size, -, rfl⟩ | ⟨slice, wait, -, -, rfl⟩ | ⟨-, rfl⟩
    · rw [writeReg_mem]
    · exact read_runWord_of_protects (s := { s with inputs := rest }) hp ha hrun
    · rfl
    · rw [hostMemRead_mem]
    · rfl
    · exact read_engineAppend_of_protects (s := { s with inputs := rest }) hp ha slice
    · rfl

/-! ## No command reads memory -/

/-- A command without a pending fault that passes its checks commits its segments. -/
theorem exec_of_fits {i : Instr} (hi : emitsBits i = true) {s : State} (hf : s.fault = false)
    (hp : s.acc.pending.length ≤ 7) (hoperand : operandFault s.cfg s.data i = 0)
    (hboundary : needsBoundary i = true → s.acc.pending = []) (hfits : s.fits (s.segments i)) :
    exec i s = .next (s.commit (s.stream.after s.port (s.written (s.segments i)))) := by
  obtain ⟨-, -, -, hemission⟩ := exec_outcome i hi s hf hp
  obtain ⟨t, ht, hemits⟩ := hemission hoperand hboundary hfits
  have htf : t.fault = false := (congrArg State.fault hemits.frame).trans hf
  rcases exec_cases i s hp with ⟨hf', -⟩ | ⟨-, k, h'⟩ | ⟨-, u, h', heffect⟩
  · exact absurd (hf'.symm.trans hf) (by decide)
  · cases h'.symm.trans ht; cases htf
  · rw [h']
    cases heffect with
    | emit _ _ => rfl
    | nop h | vleReset h | geoCompute h _ | geoClear h => subst h; cases hi

/-- A fault keeps a command from doing anything (R229). -/
theorem exec_of_fault {s : State} (hf : s.fault = true) (i : Instr) : exec i s = .next s := by
  cases i <;> exact congrArg _ (execute_of_fault hf ..)

/-- A state with another memory. -/
def State.withMem (s : State) (m : Memory) : State := { s with mem := m }

/-- The command answers the same under every memory and leaves that memory as it was. -/
def CarriesMemory (i : Instr) (s : State) : Prop := ∃ u : State, ∀ m, exec i (s.withMem m) = .next (u.withMem m)

/-- The command commits one run of bytes, the same under every memory. -/
def CommitsUnderEveryMemory (i : Instr) (s : State) (w : Written) : Prop :=
  ∀ m, exec i (s.withMem m) = .next ((s.withMem m).commit ((s.withMem m).stream.after s.port w))

theorem carriesMemory_of_fault {s : State} (hf : s.fault = true) (i : Instr) : CarriesMemory i s :=
  ⟨s, fun m => exec_of_fault (s := s.withMem m) hf i⟩

/-- The checks of a command that emits bits read the command word, DATA, the accumulator and OUT_*, and no memory. -/
theorem carriesMemory_or_commits {i : Instr} (hi : emitsBits i = true) {s : State} (hf : s.fault = false)
    (hp : s.acc.pending.length ≤ 7) :
    CarriesMemory i s ∨ CommitsUnderEveryMemory i s (s.written (s.segments i)) := by
  have outcome (m : Memory) := exec_outcome i hi (s.withMem m) hf hp
  have carries (code : BitVec 4)
      (h : ∀ m, exec i (s.withMem m)
        = .next (State.withMem { s with fault := true, faultCode := code, faultCmd := encode i } m)) :
      CarriesMemory i s := ⟨_, h⟩
  by_cases hoperand : operandFault s.cfg s.data i = 0
  · by_cases hboundary : needsBoundary i = true → s.acc.pending = []
    · by_cases hfits : s.fits (s.segments i)
      · exact .inr fun m => exec_of_fits (s := s.withMem m) hi hf hp hoperand hboundary hfits
      · refine .inl (carries 8 fun m => ?_)
        obtain ⟨-, -, hoverflow, -⟩ := outcome m
        exact hoverflow hoperand hboundary hfits
    · obtain ⟨hneeds, hpending⟩ := Classical.not_imp.1 hboundary
      refine .inl (carries 7 fun m => ?_)
      obtain ⟨-, hunaligned, -⟩ := outcome m
      exact hunaligned hoperand hneeds hpending
  · refine .inl (carries (operandFault s.cfg s.data i) fun m => ?_)
    obtain ⟨hfault, -⟩ := outcome m
    exact hfault hoperand

/-- The frame carries memory along where a total effect does. -/
theorem execute_withMem {f : State → State} (hf : ∀ s m, f (s.withMem m) = (f s).withMem m) (i : Instr)
    (c : Option FaultCode) (s : State) (m : Memory) :
    execute i c false (fun s => some (f s)) (s.withMem m)
      = (execute i c false (fun s => some (f s)) s).withMem m := by
  have hal : false = true → s.acc.pending = [] := nofun
  by_cases h : s.fault = true
  · rw [execute_of_fault h, execute_of_fault (s := s.withMem m) h]
  · have h : s.fault = false := by simpa using h
    cases c with
    | some k => rw [execute_of_operand h, execute_of_operand (s := s.withMem m) h]; rfl
    | none =>
      rw [execute_of_some (t := f s) h hal rfl,
        execute_of_some (s := s.withMem m) (t := f (s.withMem m)) h hal rfl, hf]

theorem carriesMemory_of_not_emitsBits {i : Instr} (hi : emitsBits i = false) (s : State) : CarriesMemory i s := by
  cases i <;> cases hi
  case nop => exact ⟨_, fun m => congrArg _ (execute_withMem (f := id) (fun _ _ => rfl) _ _ s m)⟩
  case vleReset => exact ⟨_, fun m => congrArg _ (execute_withMem (f := resetAccumulator) (fun _ _ => rfl) _ _ s m)⟩
  case geoCompute =>
    exact ⟨_, fun m => congrArg _
      (execute_withMem (f := latchGeometry) (fun _ _ => rfl) .geoCompute (checkGeo s.cfg s.data) s m)⟩
  case geoClear => exact ⟨_, fun m => congrArg _ (execute_withMem (f := clearGeometry) (fun _ _ => rfl) _ _ s m)⟩

/-- The stale addresses and the overflow mark after a run of bytes do not depend on memory. -/
theorem writeRun_snd (p : OutPort) (n : Nat) (l : List Byte) (m m' : Memory) (x : List Nat × Bool) :
    (writeRun p n l (m', x)).2 = (writeRun p n l (m, x)).2 := by
  induction l generalizing n m m' x with
  | nil => rfl
  | cons b l ih => simp only [writeRun]; split <;> exact ih ..

/-- A commit of a run of bytes on another memory differs in memory alone. -/
theorem commit_after_withMem (s : State) (m : Memory) (w : Written) :
    (s.withMem m).commit ((s.withMem m).stream.after s.port w)
      = (s.commit (s.stream.after s.port w)).withMem ((s.withMem m).stream.after s.port w).mem := by
  have hdirty : ((s.withMem m).stream.after s.port w).dirty = (s.stream.after s.port w).dirty :=
    congrArg Prod.fst (writeRun_snd s.port s.acc.nbytes w.bytes s.mem m (s.dirty, false))
  rw [State.commit, hdirty]
  rfl

/-- A run of bytes puts the same byte in both memories, or leaves both as they were. -/
theorem read_after_withMem (s : State) (m : Memory) (w : Written) (a : Nat) :
    Memory.read ((s.withMem m).stream.after s.port w).mem a = Memory.read (s.stream.after s.port w).mem a
      ∨ (Memory.read ((s.withMem m).stream.after s.port w).mem a = Memory.read m a
        ∧ Memory.read (s.stream.after s.port w).mem a = Memory.read s.mem a) := by
  have here := read_commit_after s w a
  have there := read_commit_after (s.withMem m) w a
  by_cases hrun : s.cursor ≤ a ∧ a < s.cursor + w.bytes.length ∧ a < s.outEnd.toNat
  · rw [if_pos hrun] at here
    exact .inl (there.trans ((if_pos hrun).trans here.symm))
  · rw [if_neg hrun] at here
    exact .inr ⟨there.trans (if_neg hrun), here⟩

/-- Settles O47: a pending fault and the commands without an emission carry memory along; a command that emits bits
raises the same fault under both memories or commits the same run of bytes. -/
theorem commandsDoNotReadMemory : Obligations.CommandsDoNotReadMemory := by
  unfold Obligations.CommandsDoNotReadMemory
  intro i s t m hp h
  have hcases : CarriesMemory i s ∨ CommitsUnderEveryMemory i s (s.written (s.segments i)) := by
    by_cases hf : s.fault = true
    · exact .inl (carriesMemory_of_fault hf i)
    · by_cases hi : emitsBits i = true
      · exact carriesMemory_or_commits hi (by simpa using hf) hp
      · exact .inl (carriesMemory_of_not_emitsBits (by simpa using hi) s)
  rcases hcases with ⟨u, hcarry⟩ | hcommit
  · cases h.symm.trans (hcarry s.mem)
    exact ⟨m, hcarry m, fun a => .inr ⟨rfl, rfl⟩⟩
  · cases h.symm.trans (hcommit s.mem)
    exact ⟨_, (hcommit m).trans (congrArg _ (commit_after_withMem s m _)), read_after_withMem s m _⟩

/-! ## Emulation prevention -/

/-- No byte below 3 follows a run of two zero bytes, `z` zero bytes having been written before the list (R73). -/
def EmulationFree (z : Nat) (l : List Byte) : Prop :=
  ∀ k b, l[k]? = some b → (l.take k).foldl zeroRun z = 2 → 3 ≤ b.toNat

theorem emulationFree_nil (z : Nat) : EmulationFree z [] := fun _ _ h => by simp at h

theorem emulationFree_cons {z : Nat} {b : Byte} {l : List Byte} (hb : z = 2 → 3 ≤ b.toNat)
    (hl : EmulationFree (zeroRun z b) l) : EmulationFree z (b :: l) := by
  intro k c hc hz
  cases k with
  | zero => cases hc; exact hb hz
  | succ k => exact hl k c hc hz

/-- With insertion on, the byte after a zero run of two is an EPB or a byte above 3. -/
theorem emulationFree_stuffed (z : Nat) (bs : List Byte) : EmulationFree z (stuffed true z bs) := by
  induction bs generalizing z with
  | nil => exact emulationFree_nil z
  | cons b bs ih =>
    rw [stuffed]
    by_cases hinsert : true = true ∧ z = 2 ∧ b.toNat < 4
    · have hepb : zeroRun z 3 = 0 := by simp [zeroRun]
      rw [if_pos hinsert]
      refine emulationFree_cons (fun _ => by decide) ?_
      rw [hepb]
      exact emulationFree_cons nofun (ih _)
    · have hlarge (hz : z = 2) : ¬b.toNat < 4 := fun hsmall => hinsert ⟨rfl, hz, hsmall⟩
      rw [if_neg hinsert]
      exact emulationFree_cons (fun hz => by have := hlarge hz; omega) (ih _)

theorem zeroRun_zero_of_pos {z : Nat} (hz : 1 ≤ z) : zeroRun z 0 = 2 := by
  rw [zeroRun, if_pos rfl, if_neg (by omega)]

theorem EmulationFree.first {l : List Byte} (h : EmulationFree 2 l) {b : Byte} (hb : l[0]? = some b) : 3 ≤ b.toNat :=
  h 0 b hb rfl

theorem EmulationFree.second {z : Nat} {l : List Byte} (h : EmulationFree z l) (hz : 1 ≤ z) {b : Byte}
    (h0 : l[0]? = some 0) (hb : l[1]? = some b) : 3 ≤ b.toNat := by
  refine h 1 b hb ?_
  rw [List.take_add_one, h0]
  exact zeroRun_zero_of_pos hz

theorem EmulationFree.third {z : Nat} {l : List Byte} (h : EmulationFree z l) {k : Nat} {b : Byte}
    (h0 : l[k]? = some 0) (h1 : l[k + 1]? = some 0) (hb : l[k + 2]? = some b) : 3 ≤ b.toNat := by
  refine h (k + 2) b hb ?_
  have hpos (y : Nat) : 1 ≤ zeroRun y 0 := by rw [zeroRun, if_pos rfl]; split <;> omega
  rw [List.take_add_one, h1, List.take_add_one, h0, List.foldl_append, List.foldl_append]
  exact zeroRun_zero_of_pos (hpos _)

/-- Byte `k` of those a step from `s` to `t` counts in NBYTES lies below OUT_END and is `b` in memory. -/
def WrittenAt (s t : State) (k : Nat) (b : Byte) : Prop :=
  s.acc.nbytes + k < t.acc.nbytes ∧ s.cursor + k < s.outEnd.toNat ∧ Memory.read t.mem (s.cursor + k) = some b

/-- The bytes written below OUT_END are the bytes of the run. -/
theorem getElem?_of_writtenAt {s : State} {w : Written} {k : Nat} {b : Byte}
    (h : WrittenAt s (s.commit (s.stream.after s.port w)) k b) : w.bytes[k]? = some b := by
  obtain ⟨hcount, hlimit, hread⟩ := h
  have hk : k < w.bytes.length := by
    have : (s.commit (s.stream.after s.port w)).acc.nbytes = s.acc.nbytes + w.bytes.length := rfl
    omega
  rw [read_commit_after, if_pos ⟨by omega, by omega, hlimit⟩, Nat.add_sub_cancel_left] at hread
  exact hread

/-- The bytes of a step are those of a list without an emulated start code. -/
def WritesEmulationFree (s t : State) : Prop :=
  ∃ l, EmulationFree s.acc.zrun l ∧ ∀ k b, WrittenAt s t k b → l[k]? = some b

theorem writesEmulationFree_of_nbytes_le {s t : State} (h : t.acc.nbytes ≤ s.acc.nbytes) : WritesEmulationFree s t :=
  ⟨[], emulationFree_nil _, fun k _ hw => absurd hw.1 (by omega)⟩

theorem writesEmulationFree_commit (s : State) (bits : Bits) :
    WritesEmulationFree s (s.commit (s.stream.after s.port (s.written [(true, bits)]))) := by
  refine ⟨_, emulationFree_stuffed s.acc.zrun (splitBytes (s.acc.pending ++ bits)).1, fun k b hw => ?_⟩
  have hbytes : (s.written [(true, bits)]).bytes = stuffed true s.acc.zrun (splitBytes (s.acc.pending ++ bits)).1 :=
    List.append_nil _
  rw [← hbytes]
  exact getElem?_of_writtenAt hw

/-- Every emission but those with start codes is one segment, with insertion as CTRL sets it (R72). -/
theorem segments_eq_singleton {i : Instr} (hi : emitsBits i = true) (hstart : i ≠ .putStartCode)
    (hframe : ∀ f, i ≠ .putFrameHeaders f) (s : State) : ∃ bits, s.segments i = [(!s.epbDis, bits)] := by
  cases i with
  | putStartCode => exact absurd rfl hstart
  | putFrameHeaders f => exact absurd rfl (hframe f)
  | nop | vleReset | geoCompute | geoClear => cases hi
  | putBits _ | putUe | putSe | putTrailing | putAud | putSps | putPps | putSliceHeader => exact ⟨_, rfl⟩

theorem writesEmulationFree_exec {i : Instr} {s t : State} (hp : s.acc.pending.length ≤ 7) (hepb : s.epbDis = false)
    (hstart : i ≠ .putStartCode) (hframe : ∀ f, i ≠ .putFrameHeaders f) (h : exec i s = .next t) :
    WritesEmulationFree s t := by
  rcases exec_cases i s hp with ⟨-, h'⟩ | ⟨-, k, h'⟩ | ⟨-, u, h', heffect⟩ <;> cases h'.symm.trans h
  · exact writesEmulationFree_of_nbytes_le le_rfl
  · exact writesEmulationFree_of_nbytes_le le_rfl
  · cases heffect with
    | emit hi _ =>
      obtain ⟨bits, hbits⟩ := segments_eq_singleton hi hstart hframe s
      rw [hbits, hepb]
      exact writesEmulationFree_commit s bits
    | nop _ | geoCompute _ _ | geoClear _ => exact writesEmulationFree_of_nbytes_le le_rfl
    | vleReset _ => exact writesEmulationFree_of_nbytes_le (Nat.zero_le _)

/-- What a step does with an engine run at the head of the queue (R268, R274). -/
theorem step_engineRun {s : State} {slice : Bits} {wait : Option Nat} {rest : List HostAccess}
    (hi : s.inputs = .engineRun slice wait :: rest) :
    (completesInTime s.cfg.engineTimeout wait = true →
      step s = .next (engineAppend slice { s with inputs := rest }))
    ∧ (completesInTime s.cfg.engineTimeout wait = false → step s = .fault .engineHang) := by
  constructor <;> intro hw <;> simp only [step, nextAccess, hi, busAction, hw, if_true, if_false, Bool.false_eq_true]

theorem writesEmulationFree_engineRun {s t : State} {slice : Bits} {wait : Option Nat} {rest : List HostAccess}
    (hp : s.acc.pending.length ≤ 7) (hepb : s.epbDis = false) (hi : s.inputs = .engineRun slice wait :: rest)
    (h : step s = .next t) : WritesEmulationFree s t := by
  obtain ⟨hdone, hhang⟩ := step_engineRun hi
  cases hw : completesInTime s.cfg.engineTimeout wait
  · cases (hhang hw).symm.trans h
  · have hrun := engineAppend_eq slice (s := { s with inputs := rest }) hp
    have hactive : (!State.epbDis { s with inputs := rest }) = true := congrArg not hepb
    cases (hdone hw).symm.trans h
    rw [hrun, hactive]
    exact writesEmulationFree_commit { s with inputs := rest } slice

/-- Settles O37: a command and an engine run write the bytes of one segment with insertion on, or none, and `stuffed`
leaves no byte below 3 after a zero run of two. -/
theorem noStartCodeIsEmulated : Obligations.NoStartCodeIsEmulated := by
  unfold Obligations.NoStartCodeIsEmulated
  rintro s t ⟨⟨hp, -⟩, -⟩ hepb hrun
  have hfree : WritesEmulationFree s t := by
    rcases hrun with ⟨i, hstart, hframe, hexec, -⟩ | ⟨slice, wait, rest, hi, hstep⟩
    · exact writesEmulationFree_exec hp hepb hstart hframe hexec
    · exact writesEmulationFree_engineRun hp hepb hi hstep
  obtain ⟨l, hl, hwritten⟩ := hfree
  refine ⟨fun k b h0 h1 hb => ?_, fun hz b hb => ?_, fun hz b h0 hb => ?_⟩
  · exact hl.third (hwritten _ _ h0) (hwritten _ _ h1) (hwritten _ _ hb)
  · rw [hz] at hl; exact hl.first (hwritten _ _ hb)
  · exact hl.second hz (hwritten _ _ h0) (hwritten _ _ hb)

end Sys2Proof.Machine

/-! The statements of the encoding's family (30_encoding.md): the opcode table matches a word by at most one row, the
decoder and the encoder are inverse to each other, and every other word is illegal. -/

namespace Sys2Proof

open Machine

/-! ## The rows of the opcode table -/

/-- The bits of a field that a mask compares in full are those of the match value. -/
theorem extractLsb'_of_match {w mask pattern : Word} {start len : Nat} (h : w &&& mask = pattern)
    (hmask : mask.extractLsb' start len = BitVec.allOnes len) :
    w.extractLsb' start len = pattern.extractLsb' start len := by
  rw [← h, BitVec.extractLsb'_and, hmask, BitVec.and_allOnes]

theorem mask_opcode : ∀ r ∈ opcodeRows, r.mask.extractLsb' 0 8 = BitVec.allOnes 8 := by decide

/-- A word has the opcode of every row that matches it. -/
theorem opcField_of_match {r : OpcodeRow} (hr : r ∈ opcodeRows) {w : Word} (h : w &&& r.mask = r.pattern) :
    opcField w = opcField r.pattern :=
  congrArg BitVec.toNat (extractLsb'_of_match h (mask_opcode r hr))

theorem opcodes_nodup : (opcodeRows.map fun r => opcField r.pattern).Nodup := by decide

/-- Settles O5: two rows that match a word would both have its opcode, and the opcodes of the table are distinct. -/
theorem oneRowMatchesAWord : Obligations.OneRowMatchesAWord := by
  unfold Obligations.OneRowMatchesAWord
  intro w
  refine (List.pairwise_map.1 opcodes_nodup).imp_of_mem fun hr hq hne ⟨hmatch, hmatch'⟩ => hne ?_
  exact (opcField_of_match hr hmatch).symm.trans (opcField_of_match hq hmatch')

theorem row_eq_of_match {r q : OpcodeRow} (hr : r ∈ opcodeRows) (hq : q ∈ opcodeRows) {w : Word}
    (h : w &&& r.mask = r.pattern) (h' : w &&& q.mask = q.pattern) : r = q :=
  List.inj_on_of_nodup_map opcodes_nodup hr hq ((opcField_of_match hr h).symm.trans (opcField_of_match hq h'))

/-! ## What the decoder answers -/

theorem hits_iff {r : OpcodeRow} {w : Word} : r.hits w = true ↔ w &&& r.mask = r.pattern := beq_iff_eq

/-- The decoder answers a command exactly where a row matches, and then the one that row builds (R104). -/
theorem decode_eq_ok_iff {w : Word} {i : Instr} :
    decode w = .ok i ↔ ∃ r ∈ opcodeRows, w &&& r.mask = r.pattern ∧ r.build w = i := by
  rw [decode]
  cases hfind : opcodeRows.find? (·.hits w) with
  | none =>
    refine ⟨nofun, fun ⟨r, hr, hmatch, _⟩ => ?_⟩
    exact absurd (hits_iff.2 hmatch) (List.find?_eq_none.1 hfind r hr)
  | some q =>
    have hq := List.mem_of_find?_eq_some hfind
    have hqmatch : w &&& q.mask = q.pattern := hits_iff.1 (List.find?_some (p := fun r : OpcodeRow => r.hits w) hfind)
    constructor
    · rintro ⟨⟩
      exact ⟨q, hq, hqmatch, rfl⟩
    · rintro ⟨r, hr, hmatch, rfl⟩
      rw [row_eq_of_match hr hq hmatch hqmatch]

/-- Where no row matches, the opcode says why (R105, R106). -/
theorem decode_of_no_match {w : Word} (h : ∀ r ∈ opcodeRows, w &&& r.mask ≠ r.pattern) :
    decode w = .error (if reservedOpcode (opcField w) then .reservedOpcode else .reservedField) := by
  have hnone : opcodeRows.find? (·.hits w) = none :=
    List.find?_eq_none.2 fun r hr hhits => h r hr (hits_iff.1 hhits)
  rw [decode, hnone]

/-! ## Decoding what was encoded -/

/-- Every command's word is one its own row matches. -/
theorem encodesItsRow (i : Instr) : Laws.EncodesItsRow.Statement i := by
  cases i with
  | nop => exact Laws.EncodesItsRow.nop
  | putBits n => exact Laws.EncodesItsRow.putBits n
  | putUe => exact Laws.EncodesItsRow.putUe
  | putSe => exact Laws.EncodesItsRow.putSe
  | putStartCode => exact Laws.EncodesItsRow.putStartCode
  | putTrailing => exact Laws.EncodesItsRow.putTrailing
  | putAud => exact Laws.EncodesItsRow.putAud
  | putSps => exact Laws.EncodesItsRow.putSps
  | putPps => exact Laws.EncodesItsRow.putPps
  | putSliceHeader => exact Laws.EncodesItsRow.putSliceHeader
  | putFrameHeaders f => exact Laws.EncodesItsRow.putFrameHeaders f
  | vleReset => exact Laws.EncodesItsRow.vleReset
  | geoCompute => exact Laws.EncodesItsRow.geoCompute
  | geoClear => exact Laws.EncodesItsRow.geoClear

/-- Settles O3: the command's own row matches its word and builds the command from it. -/
theorem decodeOfEncode : Obligations.DecodeOfEncode := by
  unfold Obligations.DecodeOfEncode
  intro i hi
  exact decode_eq_ok_iff.2 (encodesItsRow i hi)

/-! ## Encoding what was decoded -/

theorem ofBool_fField (w : Word) : BitVec.ofBool (fField w) = w.extractLsb' 16 1 := by
  refine BitVec.eq_of_getLsbD_eq fun i hi => ?_
  obtain rfl : i = 0 := Nat.lt_one_iff.1 hi
  simp [fField]

/-- A word is its five fields side by side (R101). -/
theorem fields_append (w : Word) :
    w.extractLsb' 17 15 ++ w.extractLsb' 16 1 ++ w.extractLsb' 14 2 ++ w.extractLsb' 8 6 ++ w.extractLsb' 0 8 = w := by
  rw [BitVec.extractLsb'_append_extractLsb'_eq_extractLsb' (show 17 = 16 + 1 from rfl),
    BitVec.extractLsb'_append_extractLsb'_eq_extractLsb' (show 16 = 14 + 2 from rfl),
    BitVec.extractLsb'_append_extractLsb'_eq_extractLsb' (show 14 = 8 + 6 from rfl),
    BitVec.extractLsb'_append_extractLsb'_eq_extractLsb' (show 8 = 0 + 8 from rfl)]
  exact BitVec.extractLsb'_eq_self

/-- A word whose bits outside OPC, N and F are zero is the word of these fields. -/
theorem commandWord_fields {w : Word} (hhigh : w.extractLsb' 17 15 = 0#15) (hmid : w.extractLsb' 14 2 = 0#2) :
    commandWord (opcField w) (nField w) (fField w) = w := by
  calc commandWord (opcField w) (nField w) (fField w)
    _ = 0#15 ++ w.extractLsb' 16 1 ++ 0#2 ++ w.extractLsb' 8 6 ++ w.extractLsb' 0 8 := by
      rw [commandWord, opcField, nField, ofBool_fField, BitVec.ofNat_toNat, BitVec.ofNat_toNat, BitVec.setWidth_eq,
        BitVec.setWidth_eq]
    _ = w := by rw [← hhigh, ← hmid, fields_append]

/-- Every word the row matches is the word of the command the row builds from it. -/
def OpcodeRow.Sound (r : OpcodeRow) : Prop :=
  ∀ w, w &&& r.mask = r.pattern → (r.build w).wellFormed = true ∧ encode (r.build w) = w

/-- A row without a free field matches one word. -/
theorem sound_of_encode_eq {i : Instr} {pattern : Word} (hi : i.wellFormed = true) (he : encode i = pattern) :
    OpcodeRow.Sound ⟨pattern, 0xFFFFFFFF, fun _ => i⟩ := by
  intro w hmatch
  have hw : w = pattern := (BitVec.and_allOnes (x := w)).symm.trans hmatch
  exact ⟨hi, he.trans hw.symm⟩

theorem sound_putBits : OpcodeRow.Sound ⟨0x00000001, 0xFFFFC0FF, fun c => .putBits (nField c)⟩ := by
  intro w hmatch
  have hopc : opcField w = 1 := congrArg BitVec.toNat (extractLsb'_of_match hmatch (by decide))
  have hf : BitVec.ofBool (fField w) = BitVec.ofBool false :=
    (ofBool_fField w).trans (extractLsb'_of_match hmatch (by decide))
  have hword := commandWord_fields (extractLsb'_of_match hmatch (by decide)) (extractLsb'_of_match hmatch (by decide))
  rw [hopc, BitVec.ofBool_eq_iff_eq.1 hf] at hword
  have hn : nField w < 64 := (w.extractLsb' 8 6).isLt
  exact ⟨decide_eq_true (Nat.le_of_lt_succ hn), hword⟩

theorem sound_putFrameHeaders : OpcodeRow.Sound ⟨0x0000000A, 0xFFFEFFFF, fun c => .putFrameHeaders (fField c)⟩ := by
  intro w hmatch
  have hopc : opcField w = 10 := congrArg BitVec.toNat (extractLsb'_of_match hmatch (by decide))
  have hn : nField w = 0 := congrArg BitVec.toNat (extractLsb'_of_match hmatch (by decide))
  have hword := commandWord_fields (extractLsb'_of_match hmatch (by decide)) (extractLsb'_of_match hmatch (by decide))
  rw [hopc, hn] at hword
  exact ⟨rfl, hword⟩

theorem opcodeRows_sound : ∀ r ∈ opcodeRows, r.Sound := by
  simp only [opcodeRows, List.forall_mem_cons]
  exact ⟨sound_of_encode_eq rfl rfl, sound_putBits, sound_of_encode_eq rfl rfl, sound_of_encode_eq rfl rfl,
    sound_of_encode_eq rfl rfl, sound_of_encode_eq rfl rfl, sound_of_encode_eq rfl rfl, sound_of_encode_eq rfl rfl,
    sound_of_encode_eq rfl rfl, sound_of_encode_eq rfl rfl, sound_putFrameHeaders, sound_of_encode_eq rfl rfl,
    sound_of_encode_eq rfl rfl, sound_of_encode_eq rfl rfl, nofun⟩

/-- Settles O4: the row that matched the word is sound. -/
theorem encodeOfDecode : Obligations.EncodeOfDecode := by
  unfold Obligations.EncodeOfDecode
  intro w i hdecode
  obtain ⟨r, hr, hmatch, rfl⟩ := decode_eq_ok_iff.1 hdecode
  exact opcodeRows_sound r hr w hmatch

/-! ## Illegal words -/

theorem opcField_eq_mod (w : Word) : opcField w = w.toNat % 256 := by
  rw [opcField, BitVec.extractLsb'_toNat]; rfl

/-- With no fault pending, a word that has no command raises ILLEGAL_CMD (R222, R226). -/
theorem runWord_of_error_of_no_fault {w : Word} {e : DecodeError} (hdecode : decode w = .error e) {s : State}
    (hf : s.fault = false) : runWord w s = .next { s with fault := true, faultCode := 1, faultCmd := w } := by
  rw [runWord_of_error hdecode, executeIllegal, hf]; rfl

theorem reservedOpcode_iff (opc : Nat) :
    reservedOpcode opc = true ↔ (0x0C ≤ opc ∧ opc ≤ 0x0F) ∨ 0x12 ≤ opc := by
  simp only [reservedOpcode, Bool.or_eq_true, Bool.and_eq_true, decide_eq_true_eq]

theorem reservedOpcode_row : ∀ r ∈ opcodeRows, reservedOpcode (opcField r.pattern) = false := by decide

/-- A reserved opcode is the opcode of no row, so no row matches (R105). -/
theorem decode_of_reservedOpcode {w : Word} (h : reservedOpcode (opcField w) = true) :
    decode w = .error .reservedOpcode := by
  rw [decode_of_no_match, if_pos h]
  intro r hr hmatch
  rw [opcField_of_match hr hmatch, reservedOpcode_row r hr] at h
  cases h

/-- Settles O6: no row matches a word with a reserved opcode. -/
theorem reservedOpcodesAreIllegal : Obligations.ReservedOpcodesAreIllegal := by
  unfold Obligations.ReservedOpcodesAreIllegal
  intro s w hf hopc
  rw [← opcField_eq_mod] at hopc
  have hdecode := decode_of_reservedOpcode ((reservedOpcode_iff (opcField w)).2 (by omega))
  exact ⟨hdecode, runWord_of_error_of_no_fault hdecode hf⟩

/-- The bits outside OPC and the free field of the row with this opcode (R106). -/
def reservedBits (opc : Nat) : Word :=
  if opc = 0x01 then 0xFFFFC000 else if opc = 0x0A then 0xFFFEFF00 else 0xFFFFFF00

/-- A row compares the reserved bits of its opcode with zero. -/
theorem reservedBits_row : ∀ r ∈ opcodeRows,
    r.mask &&& reservedBits (opcField r.pattern) = reservedBits (opcField r.pattern)
    ∧ r.pattern &&& reservedBits (opcField r.pattern) = 0 := by decide

theorem reservedBits_of_match {r : OpcodeRow} (hr : r ∈ opcodeRows) {w : Word} (h : w &&& r.mask = r.pattern) :
    w &&& reservedBits (opcField w) = 0 := by
  obtain ⟨hmask, hpattern⟩ := reservedBits_row r hr
  rw [opcField_of_match hr h, ← hmask, ← BitVec.and_assoc, h, hpattern]

/-- Settles O7: every row that matches a word finds its reserved bits zero, so no row matches this one. -/
theorem reservedFieldsAreIllegal : Obligations.ReservedFieldsAreIllegal := by
  unfold Obligations.ReservedFieldsAreIllegal
  intro s w hf hopc hbits
  rw [← opcField_eq_mod] at hopc hbits
  have hassigned : reservedOpcode (opcField w) ≠ true := fun h => by
    have := (reservedOpcode_iff (opcField w)).1 h
    omega
  have hdecode : decode w = .error .reservedField := by
    rw [decode_of_no_match fun r hr hmatch => hbits (reservedBits_of_match hr hmatch), if_neg hassigned]
  exact ⟨hdecode, runWord_of_error_of_no_fault hdecode hf⟩

/-! ## Written-out words -/

theorem decode_of_encode_eq {i : Instr} {w : Word} (hi : i.wellFormed = true) (he : encode i = w) :
    decode w = .ok i := he ▸ decodeOfEncode i hi

/-- PUT_BITS with a count above its maximum raises BITS_WIDTH, whatever the accumulator holds (R131). -/
theorem exec_putBits_of_bitsMaxN_lt {n : Nat} {s : State} (hf : s.fault = false) (hn : s.cfg.bitsMaxN < n) :
    exec (.putBits n) s = .next (raiseFault .bitsWidth (encode (.putBits n)) s) := by
  have hcheck : checkBits s.cfg n = some .bitsWidth := if_pos hn
  rw [exec, execPutBits, hcheck, execute_of_operand hf]

/-- Settles O1: the words by evaluation; the first faulting word is PUT_BITS 33, whose count is above the stated
maximum of 32, and the other three have no command. -/
theorem workedEncodings : Obligations.WorkedEncodings := by
  unfold Obligations.WorkedEncodings
  refine ⟨rfl, rfl, rfl, rfl, rfl, decode_of_encode_eq rfl rfl, decode_of_encode_eq rfl rfl,
    decode_of_encode_eq rfl rfl, decode_of_encode_eq rfl rfl, decode_of_encode_eq rfl rfl, fun s hcfg hf => ?_⟩
  have hwide : s.cfg.bitsMaxN < 33 := by rw [hcfg]; decide
  have hdecode : decode 0x00002101 = .ok (.putBits 33) := decode_of_encode_eq rfl rfl
  have hfield : decode 0x00000102 = .error .reservedField := by decide
  have hfield' : decode 0x00010001 = .error .reservedField := by decide
  have hopc : decode 0x0000000C = .error .reservedOpcode := by decide
  exact ⟨(runWord_of_ok hdecode s).trans (exec_putBits_of_bitsMaxN_lt hf hwide),
    runWord_of_error_of_no_fault hfield hf, runWord_of_error_of_no_fault hfield' hf,
    runWord_of_error_of_no_fault hopc hf⟩

/-- Settles O2: each word is the encoding of its command (O3). -/
theorem tableWordsDecode : Obligations.TableWordsDecode := by
  unfold Obligations.TableWordsDecode
  and_intros <;> exact decode_of_encode_eq rfl rfl

end Sys2Proof

/-! The statements of the Exp-Golomb family (40_expgolomb.md): the codes as bit strings and their decoders, and the
three commands that append them. -/

namespace Sys2Proof.Machine

/-! ## Unsigned codes (R132, R133) -/

/-- One bit more than the logarithm holds all the digits of a number. -/
theorem natOfBits_bin_log2 (x : Nat) : natOfBits (bin x (x.log2 + 1)) = x := by
  rw [natOfBits_bin, Nat.mod_eq_of_lt Nat.lt_log2_self]

/-- The decoder's answer on k zeros and then k + 1 bits of which the first is 1: that bit ends the run it counts. -/
theorem ueDecode_replicate_append {k : Nat} {tail : Bits} (hlength : tail.length = k) (rest : Bits) :
    ueDecode (List.replicate k false ++ true :: tail ++ rest) = some (natOfBits (true :: tail) - 1, rest) := by
  subst hlength
  simp [ueDecode, natOfBits]

/-- The decoder recovers every value, and the bits that follow its code (R133). -/
theorem ueDecode_ueCode_append (v : Nat) (rest : Bits) : ueDecode (ueCode v ++ rest) = some (v, rest) := by
  have hbin : bin (v + 1) ((v + 1).log2 + 1) = true :: bin (v + 1) (v + 1).log2 := by
    rw [bin, testBit_log2 v.succ_ne_zero]
  rw [ueCode_cons, ueDecode_replicate_append (bin_length _ _), ← hbin, natOfBits_bin_log2, Nat.add_sub_cancel]

/-- A code that another one starts with decodes to the other's value. -/
theorem eq_of_ueCode_prefix {v v' : Nat} (h : ueCode v <+: ueCode v') : v = v' := by
  obtain ⟨rest, hrest⟩ := h
  have hdecode : some (v, rest) = some (v', []) :=
    calc some (v, rest)
      _ = ueDecode (ueCode v ++ rest) := (ueDecode_ueCode_append v rest).symm
      _ = ueDecode (ueCode v' ++ []) := by rw [hrest, List.append_nil]
      _ = some (v', []) := ueDecode_ueCode_append v' []
  exact congrArg Prod.fst (Option.some.inj hdecode)

theorem log2_succ_of_range {k v : Nat} (hlow : 2 ^ k - 1 ≤ v) (hhigh : v ≤ 2 ^ (k + 1) - 2) : (v + 1).log2 = k := by
  have hpos : 0 < 2 ^ k := Nat.two_pow_pos k
  rw [Nat.log2_eq_iff v.succ_ne_zero]
  omega

/-- Settles O21: the form k zeros, then a 1, then k bits gives the zeros and the decoder; that no code is a prefix of
another follows from the decoder, and the lengths from the logarithm. -/
theorem ueCodeProperties : Obligations.UeCodeProperties := by
  unfold Obligations.UeCodeProperties
  refine ⟨ueCode_eq, ueCode_length, fun v v' => eq_of_ueCode_prefix, fun v => ⟨_, ueCode_cons v⟩,
    ueDecode_ueCode_append, by decide, fun k v hlow hhigh => ?_⟩
  rw [ueCode_length, log2_succ_of_range hlow hhigh]

/-! ## Signed codes (R136 to R138) -/

theorem intCast_zigzag (v : Int) : (zigzag v : Int) = if 0 < v then 2 * v - 1 else -2 * v := by
  unfold zigzag
  split <;> omega

/-- Settles O22: the model's map is the zig-zag map on the domain (`seMap_toNat`), where it is not negative. -/
theorem seMapIsZigzag : Obligations.SeMapIsZigzag := by
  unfold Obligations.SeMapIsZigzag
  intro v hlow hhigh
  rw [seMap_toNat hlow hhigh, intCast_zigzag]

/-- The signed decoder undoes the zig-zag map on every integer: positive values have the odd codes. -/
theorem seDecode_ueCode_zigzag (v : Int) (rest : Bits) : seDecode (ueCode (zigzag v) ++ rest) = some (v, rest) := by
  have hzigzag := intCast_zigzag v
  simp only [seDecode, ueDecode_ueCode_append, Option.map_some, Option.some.injEq, Prod.mk.injEq, and_true]
  by_cases hpos : 0 < v
  · rw [if_pos hpos] at hzigzag
    rw [if_pos (by omega)]
    omega
  · rw [if_neg hpos] at hzigzag
    rw [if_neg (by omega)]
    omega

/-- Settles O23: on the domain the signed code is the unsigned code of the zig-zag value (`seCode_eq`). -/
theorem seCodeRoundTrip : Obligations.SeCodeRoundTrip := by
  unfold Obligations.SeCodeRoundTrip
  refine ⟨fun _ => rfl, fun v rest hlow hhigh => ?_, by decide, by decide⟩
  rw [seCode_eq hlow hhigh, seDecode_ueCode_zigzag]

/-! ## PUT_BITS (R131) -/

theorem encode_putBits {n : Nat} (hn : n ≤ 63) : encode (.putBits n) = BitVec.ofNat 32 (256 * n + 0x01) := by
  have hfield : ∀ k : Fin 64, encode (.putBits k) = BitVec.ofNat 32 (256 * k + 0x01) := by decide
  exact hfield ⟨n, Nat.lt_succ_of_le hn⟩

/-- PUT_BITS 0 appends no bit, so it commits the accumulator and the memory it started from. -/
theorem exec_putBits_zero {s : State} (hf : s.fault = false) : exec (.putBits 0) s = .next s := by
  have hcheck : checkBits s.cfg 0 = none := if_neg (Nat.not_lt_zero _)
  have hemission : emission (fun s => s.append (bin s.data.toNat 0)) s = some s := rfl
  rw [exec, execPutBits, hcheck, execute_of_some hf (al := false) nofun hemission]

/-- Settles O24: the outcome of a command that emits bits (`exec_outcome`), N = 0 apart. -/
theorem putBitsAppendsLowBits : Obligations.PutBitsAppendsLowBits := by
  unfold Obligations.PutBitsAppendsLowBits
  intro s n hcfg ⟨⟨hpending, _⟩, _⟩ hf hn
  have hmax : s.cfg.bitsMaxN = 32 := by rw [hcfg]; rfl
  obtain ⟨-, -, hoverflow, hemits⟩ := exec_outcome (.putBits n) rfl s hf hpending
  have hoperand (hle : n ≤ 32) : operandFault s.cfg s.data (.putBits n) = 0 := if_neg (by omega)
  rw [encode_putBits hn] at hoverflow
  refine ⟨decode_of_encode_eq (decide_eq_true hn) (encode_putBits hn), fun hle => hemits (hoperand hle) nofun, ?_,
    fun hgt => ?_, fun hle => hoverflow (hoperand hle) nofun⟩
  · rintro rfl
    exact exec_putBits_zero hf
  · rw [exec_putBits_of_bitsMaxN_lt hf (by omega), encode_putBits hn]
    rfl

/-! ## PUT_UE (R134, R135) and PUT_SE (R137, R139) -/

/-- The operand check of PUT_UE, with the value it refuses as a word. -/
theorem operandFault_putUe (cfg : Config) (d : Word) :
    operandFault cfg d .putUe = if d = 0xFFFFFFFF ∨ cfg.ueMaxCodeBits < (ueCode d.toNat).length then 3 else 0 := by
  have hword : d = 0xFFFFFFFF ↔ d.toNat = 2 ^ 32 - 1 := BitVec.toNat_inj.symm
  simp only [operandFault, hword]

/-- Settles O25: the outcome of a command that emits bits, its operand check being R134's domain. -/
theorem putUeAppendsTheCode : Obligations.PutUeAppendsTheCode := by
  unfold Obligations.PutUeAppendsTheCode
  intro s ⟨⟨hpending, _⟩, _⟩ hf
  obtain ⟨hrange, -, hoverflow, hemits⟩ := exec_outcome .putUe rfl s hf hpending
  have hoperand (hne : s.data ≠ 0xFFFFFFFF) (hlen : (ueCode s.data.toNat).length ≤ s.cfg.ueMaxCodeBits) :
      operandFault s.cfg s.data .putUe = 0 := by
    rw [operandFault_putUe, if_neg (not_or.2 ⟨hne, not_lt.2 hlen⟩)]
  refine ⟨fun hne hlen => hemits (hoperand hne hlen) nofun, fun hout => ?_,
    fun hne hlen => hoverflow (hoperand hne hlen) nofun⟩
  rw [operandFault_putUe, if_pos hout] at hrange
  exact hrange (by decide)

/-- Settles O26: the outcome of a command that emits bits, its operand check being R137's domain. -/
theorem putSeAppendsTheCode : Obligations.PutSeAppendsTheCode := by
  unfold Obligations.PutSeAppendsTheCode
  intro s ⟨⟨hpending, _⟩, _⟩ hf
  obtain ⟨hrange, -, hoverflow, hemits⟩ := exec_outcome .putSe rfl s hf hpending
  refine ⟨fun hlow hhigh hlen => ?_, fun hout => ?_⟩
  · have hoperand : operandFault s.cfg s.data .putSe = 0 := if_neg (by omega)
    exact ⟨hemits hoperand nofun, hoverflow hoperand nofun⟩
  · have hoperand : operandFault s.cfg s.data .putSe = 4 := if_pos hout
    rw [hoperand] at hrange
    exact hrange (by decide)

end Sys2Proof.Machine

/-! The statements of the NAL composer's family (41_nal_composer.md): the primitive commands that append start code,
trailing bits and the four units, and PUT_FRAME_HEADERS as their sequence. -/

namespace Sys2Proof.Machine

/-! ## Commands whose checks pass -/

/-- Where its checks pass, a command that emits bits either emits its segments or raises OVERFLOW. -/
theorem exec_emits_or_overflows {i : Instr} (hi : emitsBits i = true) {s : State} (hf : s.fault = false)
    (hp : s.acc.pending.length ≤ 7) (hoperand : operandFault s.cfg s.data i = 0)
    (hboundary : needsBoundary i = true → s.acc.pending = []) :
    (s.fits (s.segments i) → ∃ t, exec i s = .next t ∧ s.Emits (s.segments i) t)
    ∧ (¬s.fits (s.segments i) → exec i s = .next { s with fault := true, faultCode := 8, faultCmd := encode i }) := by
  obtain ⟨-, -, hoverflow, hemits⟩ := exec_outcome i hi s hf hp
  exact ⟨hemits hoperand hboundary, hoverflow hoperand hboundary⟩

/-! ## PUT_START_CODE (R151) -/

/-- Without insertion the bytes are written as they are (R74). -/
theorem stuffed_false (z : Nat) (bs : List Byte) : stuffed false z bs = bs := by
  induction bs generalizing z with
  | nil => rfl
  | cons b bs ih => rw [stuffed, if_neg (by simp), ih]

/-- The start code at a byte boundary: four bytes and no EPB, whatever was written before, and a zero run of 0. -/
theorem written_startSegment {s : State} (hp : s.acc.pending = []) :
    s.written [startSegment] = ⟨[0x00, 0x00, 0x00, 0x01], [], 0, 0⟩ := by
  have hsplit : splitBytes startSegment.2 = ([0x00, 0x00, 0x00, 0x01], []) := by decide
  have hraw (z : Nat) (bs : List Byte) : stuffed startSegment.1 z bs = bs := stuffed_false z bs
  simp [State.written, hp, writtenFrom, hsplit, hraw, zeroRun]

theorem fits_startSegment_iff {s : State} (hp : s.acc.pending = []) :
    s.fits [startSegment] ↔ s.cursor + 4 ≤ s.outEnd.toNat := by
  simp [State.fits, written_startSegment hp]

/-- Settles O27: at a byte boundary the bytes are `written_startSegment`'s; off it the boundary check fails. -/
theorem putStartCodeWritesItRaw : Obligations.PutStartCodeWritesItRaw := by
  unfold Obligations.PutStartCodeWritesItRaw
  intro s ⟨⟨hp, _⟩, _⟩ hf
  have hsegment : (false, bin 0x00000001 32) = startSegment := by decide
  obtain ⟨-, hunaligned, hoverflow, hemits⟩ := exec_outcome .putStartCode rfl s hf hp
  rw [hsegment]
  refine ⟨fun hempty hroom => ?_, hunaligned rfl rfl, fun hempty hshort => ?_⟩
  · have hwritten := written_startSegment hempty
    obtain ⟨t, ht, hem⟩ := hemits rfl (fun _ => hempty) ((fits_startSegment_iff hempty).2 hroom)
    have hctrl : t.epbDis = s.epbDis := by rw [hem.frame]
    exact ⟨t, ht, hem, congrArg Written.bytes hwritten, hem.zrun.trans (congrArg Written.zrun hwritten), hctrl⟩
  · exact hoverflow rfl (fun _ => hempty) ((fits_startSegment_iff hempty).not.2 (by omega))

/-! ## PUT_TRAILING (R152, R153) -/

/-- Settles O28: PUT_TRAILING has no check, so it emits or overflows. -/
theorem putTrailingAppendsStopAndZeros : Obligations.PutTrailingAppendsStopAndZeros := by
  unfold Obligations.PutTrailingAppendsStopAndZeros
  intro s ⟨⟨hp, _⟩, _⟩ hf
  exact exec_emits_or_overflows (i := .putTrailing) rfl hf hp rfl nofun

theorem natOfBits_concat (p : Bits) (b : Bool) : natOfBits (p ++ [b]) = 2 * natOfBits p + b.toNat := by
  simp only [natOfBits, List.foldl_append, List.foldl_cons, List.foldl_nil]

theorem natOfBits_lt (p : Bits) : natOfBits p < 2 ^ p.length := by
  induction p using List.reverseRecOn with
  | nil => decide
  | append_singleton p b ih =>
    have hbit := b.toNat_le
    rw [natOfBits_concat, List.length_append, List.length_singleton, Nat.pow_succ]
    omega

theorem natOfBits_pos {p : Bits} (h : true ∈ p) : 0 < natOfBits p := by
  induction p using List.reverseRecOn with
  | nil => cases h
  | append_singleton p b ih =>
    rw [natOfBits_concat]
    rcases List.mem_append.1 h with hmem | hmem
    · have hpos := ih hmem
      omega
    · rw [← List.mem_singleton.1 hmem, Bool.toNat_true]
      omega

theorem byteOfBits_ne_zero {p : Bits} (hlength : p.length = 8) (h : true ∈ p) : byteOfBits p ≠ 0 := by
  have hlt := natOfBits_lt p
  have hpos := natOfBits_pos h
  rw [hlength] at hlt
  intro hzero
  have hnat : (byteOfBits p).toNat = 0 := by rw [hzero]; rfl
  rw [byteOfBits, BitVec.toNat_ofNat, Nat.mod_eq_of_lt hlt] at hnat
  omega

/-- The bytes that PUT_TRAILING completes before insertion: the one with the stop bit, which is not zero, and a zero
byte after it where the stop bit was its last. -/
theorem splitBytes_append_stopAndZeros {p : Bits} {L : Nat} (hp : L % 8 = p.length) :
    ∃ b, b ≠ 0 ∧ splitBytes (p ++ stopAndZeros L) = (b :: List.replicate (if L % 8 = 7 then 1 else 0) 0, []) := by
  obtain ⟨front, back, hbits, hlength, hstop, hback⟩ :
      ∃ front back : Bits, p ++ stopAndZeros L = front ++ back ∧ front.length = 8 ∧ true ∈ front
        ∧ splitBytes back = (List.replicate (if L % 8 = 7 then 1 else 0) 0, []) := by
    by_cases h7 : L % 8 = 7
    · refine ⟨p ++ [true], List.replicate 8 false, ?_, ?_, by simp, by rw [if_pos h7]; decide⟩
      · rw [stopAndZeros, show 8 - (L + 1) % 8 = 8 by omega, List.append_assoc]; rfl
      · rw [List.length_append, List.length_singleton]; omega
    · refine ⟨p ++ stopAndZeros L, [], (List.append_nil _).symm, ?_, by simp [stopAndZeros], ?_⟩
      · rw [List.length_append, stopAndZeros_length]; omega
      · rw [if_neg h7]; decide
  refine ⟨byteOfBits front, byteOfBits_ne_zero hlength hstop, ?_⟩
  rw [hbits, splitBytes_of_eq hlength, hback]

/-- A byte that is not zero is written, after an EPB where one is due, and the bytes after it as from a zero run of 0. -/
theorem stuffed_cons_of_ne_zero (active : Bool) (z : Nat) {b : Byte} (hb : b ≠ 0) (bs : List Byte) :
    ∃ epb, stuffed active z (b :: bs) = epb ++ b :: stuffed active 0 bs := by
  have hrun (z : Nat) : zeroRun z b = 0 := if_neg hb
  rw [stuffed, hrun, hrun]
  split
  · exact ⟨[3], rfl⟩
  · exact ⟨[], rfl⟩

theorem stuffed_zero_replicate (active : Bool) {n : Nat} (hn : n ≤ 1) :
    stuffed active 0 (List.replicate n 0) = List.replicate n 0 := by
  interval_cases n
  · rfl
  · cases active <;> rfl

/-- What PUT_TRAILING writes ends in the byte of the stop bit and at most one zero byte, and leaves nothing pending. -/
theorem written_stopAndZeros {s : State} {L : Nat} (hp : L % 8 = s.acc.pending.length) (active : Bool) :
    ∃ b epb, b ≠ 0 ∧ (splitBytes (s.acc.pending ++ stopAndZeros L)).1.head? = some b
      ∧ (s.written [(active, stopAndZeros L)]).bytes
          = epb ++ b :: List.replicate (if L % 8 = 7 then 1 else 0) 0
      ∧ (s.written [(active, stopAndZeros L)]).pending = [] := by
  obtain ⟨b, hb, hsplit⟩ := splitBytes_append_stopAndZeros hp
  obtain ⟨epb, hstuffed⟩ := stuffed_cons_of_ne_zero active s.acc.zrun hb
    (List.replicate (if L % 8 = 7 then 1 else 0) 0)
  refine ⟨b, epb, hb, by rw [hsplit]; rfl, ?_, by simp only [State.written, writtenFrom, hsplit]⟩
  simp only [State.written, writtenFrom, hsplit, List.append_nil]
  rw [hstuffed, stuffed_zero_replicate active (by split <;> omega)]

/-- With insertion off an emission writes its bits and nothing else. -/
theorem written_false_bits (s : State) (bits : Bits) :
    8 * (s.written [(false, bits)]).bytes.length + (s.written [(false, bits)]).pending.length
      = s.acc.pending.length + bits.length := by
  simp only [State.written, writtenFrom, stuffed_false, List.append_nil, splitBytes_bits, List.length_append]

/-- PUT_TRAILING without a fault is its emission. -/
theorem emits_of_putTrailing {s t : State} (hf : s.fault = false) (hp : s.acc.pending.length ≤ 7)
    (h : exec .putTrailing s = .next t) (ht : t.fault = false) : s.Emits (s.segments .putTrailing) t := by
  obtain ⟨-, -, hoverflow, hemits⟩ := exec_outcome .putTrailing rfl s hf hp
  by_cases hfits : s.fits (s.segments .putTrailing)
  · obtain ⟨u, hu, hem⟩ := hemits rfl nofun hfits
    cases hu.symm.trans h
    exact hem
  · cases (hoverflow rfl nofun hfits).symm.trans h
    cases ht

/-- Settles O29: the emission's bytes are `written_stopAndZeros`'s, and memory holds them at their addresses. -/
theorem trailingEndsOnAByteBoundary : Obligations.TrailingEndsOnAByteBoundary := by
  unfold Obligations.TrailingEndsOnAByteBoundary
  intro s t hinv hf h ht L z
  have hinv' : t.Inv := inv_exec hinv h
  obtain ⟨⟨hp, -⟩, -⟩ := hinv
  obtain ⟨⟨-, -, hnepb, -⟩, -⟩ := hinv'
  have hL : L % 8 = s.acc.pending.length := by omega
  have hem : s.Emits [(!s.epbDis, stopAndZeros L)] t := emits_of_putTrailing hf hp h ht
  obtain ⟨b, epb, hb, hhead, hbytes, hleft⟩ := written_stopAndZeros hL (!s.epbDis)
  have hpending : t.acc.pending = [] := hem.pending.trans hleft
  refine ⟨hem, hpending, ?_, by omega, by omega, by omega, fun hoff => ?_, b, ?_, hb, hhead⟩
  · rw [vleLen_toNat hnepb, hpending, List.length_nil]
    omega
  · have hbits := written_false_bits s (stopAndZeros L)
    have hnbytes := hem.nbytes
    rw [hoff, Bool.not_true] at hnbytes hleft
    rw [hleft, stopAndZeros_length, List.length_nil] at hbits
    omega
  · have hcursor : t.cursor = s.cursor + (s.written [(!s.epbDis, stopAndZeros L)]).bytes.length := by
      rw [State.cursor, State.cursor, hem.nbytes, hem.frame, Nat.add_assoc]
    have hread := hem.bytes epb.length (by rw [hbytes]; simp)
    rw [hbytes] at hcursor hread
    have haddress : t.cursor - (if L % 8 = 7 then 2 else 1) = s.cursor + epb.length := by
      rw [hcursor, List.length_append, List.length_cons, List.length_replicate]
      split <;> omega
    rw [haddress, hread]
    simp

/-! ## The units as tables (R160, R165, R170, R175) -/

/-- An eight-bit field at a byte boundary is one byte. -/
theorem splitBytes_bin_append (v : Nat) (bs : Bits) :
    splitBytes (bin v 8 ++ bs) = (BitVec.ofNat 8 v :: (splitBytes bs).1, (splitBytes bs).2) := by
  have hbyte : byteOfBits (bin v 8) = BitVec.ofNat 8 v := by
    rw [byteOfBits, natOfBits_bin]
    exact BitVec.eq_of_toNat_eq (by simp)
  rw [splitBytes_of_eq (bin_length v 8), hbyte]

/-- Settles O30: PUT_AUD has no check, and its table is all constants under R11's values. -/
theorem putAudAppendsTheDelimiter : Obligations.PutAudAppendsTheDelimiter := by
  unfold Obligations.PutAudAppendsTheDelimiter
  intro s hcfg ⟨⟨hp, _⟩, _⟩ hf
  have htype : s.cfg.primaryPicType = 7 := by rw [hcfg]; rfl
  refine ⟨?_, exec_emits_or_overflows (i := .putAud) rfl hf hp rfl nofun⟩
  rw [audTable, htype]
  decide

/-- Settles O31: the operand check of PUT_SPS is R166's, and where it passes the command emits or overflows. -/
theorem putSpsAppendsTheParameterSet : Obligations.PutSpsAppendsTheParameterSet := by
  unfold Obligations.PutSpsAppendsTheParameterSet
  intro s ⟨⟨hp, _⟩, _⟩ hf
  refine ⟨fun hw hh => ?_, fun hzero => ?_⟩
  · have hoperand : operandFault s.cfg s.data .putSps = 0 := if_neg (by omega)
    exact exec_emits_or_overflows (i := .putSps) rfl hf hp hoperand nofun
  · have hoperand : operandFault s.cfg s.data .putSps = 5 := if_pos hzero
    obtain ⟨hrange, -⟩ := exec_outcome .putSps rfl s hf hp
    rw [hoperand] at hrange
    exact hrange (by decide)

/-- The SPS of the default parameters starts with four whole bytes: header, profile, constraints, level (R165). -/
theorem spsTable_default_bits (mbW mbH : Nat) :
    tableBits (spsTable Config.default mbW mbH)
      = bin 0x67 8 ++ (bin 0x4D 8 ++ (bin 0x00 8 ++ (bin 0x29 8 ++
          ([true, true, true, true, false, true, false, false] ++ (ueCode (mbW - 1) ++ (ueCode (mbH - 1)
            ++ [true, true, false, false])))))) := rfl

/-- Settles O32: `spsTable_default_bits` gives the length and, byte by byte, the start. -/
theorem spsLengthAndFirstBytes : Obligations.SpsLengthAndFirstBytes := by
  unfold Obligations.SpsLengthAndFirstBytes
  have hlength (mbW mbH : Nat) : (tableBits (spsTable Config.default mbW mbH)).length
      = 44 + (ueCode (mbW - 1)).length + (ueCode (mbH - 1)).length := by
    simp only [spsTable_default_bits, List.length_append, bin_length, List.length_cons, List.length_nil]
    omega
  refine ⟨hlength, ?_, fun mbW mbH => ?_⟩
  · rw [hlength]; decide
  · simp only [spsTable_default_bits, splitBytes_bin_append]
    rfl

/-- Settles O33: the default table by computation; PUT_PPS has no check. -/
theorem putPpsAppendsTheParameterSet : Obligations.PutPpsAppendsTheParameterSet := by
  unfold Obligations.PutPpsAppendsTheParameterSet
  refine ⟨by decide, ?_⟩
  intro s ⟨⟨hp, _⟩, _⟩ hf
  exact exec_emits_or_overflows (i := .putPps) rfl hf hp rfl nofun

/-- Settles O34: the default table by computation; PUT_SLICE_HEADER has no check. -/
theorem putSliceHeaderAppendsTheHeader : Obligations.PutSliceHeaderAppendsTheHeader := by
  unfold Obligations.PutSliceHeaderAppendsTheHeader
  refine ⟨by decide, ?_⟩
  intro s ⟨⟨hp, _⟩, _⟩ hf
  exact exec_emits_or_overflows (i := .putSliceHeader) rfl hf hp rfl nofun

/-! ## PUT_FRAME_HEADERS (R180) -/

/-- Settles O35: the three outcomes of a command that emits bits, its operand check run only when F = 1. -/
theorem putFrameHeadersAppendsTheSequence : Obligations.PutFrameHeadersAppendsTheSequence := by
  unfold Obligations.PutFrameHeadersAppendsTheSequence
  intro s f ⟨⟨hp, _⟩, _⟩ hf mbW mbH segs word
  have hword : encode (.putFrameHeaders f) = word := by cases f <;> decide
  have hoperand (hsizes : f = true → 1 ≤ mbW ∧ 1 ≤ mbH) : operandFault s.cfg s.data (.putFrameHeaders f) = 0 :=
    if_neg (by rintro ⟨hfirst, hzero⟩; have := hsizes hfirst; omega)
  obtain ⟨hrange, hunaligned, -⟩ := exec_outcome (.putFrameHeaders f) rfl s hf hp
  rw [← hword]
  refine ⟨fun hsizes hempty => ?_, fun hfirst hzero => ?_, fun hsizes hpending => ?_⟩
  · exact exec_emits_or_overflows rfl hf hp (hoperand hsizes) fun _ => hempty
  · have hfault : operandFault s.cfg s.data (.putFrameHeaders f) = 5 := if_pos ⟨hfirst, hzero⟩
    rw [hfault] at hrange
    exact hrange (by decide)
  · exact hunaligned (hoperand hsizes) rfl hpending

/-! ## Runs of commands that emit -/

theorem execAll_cons_of_next {i : Instr} {s u : State} (h : exec i s = .next u) (is : List Instr) :
    execAll (i :: is) s = execAll is u := by
  rw [execAll, h]

/-- A run that starts with a fault pending ends in the state it started from (R229). -/
theorem execAll_of_fault {s : State} (hf : s.fault = true) (is : List Instr) : execAll is s = some s := by
  induction is with
  | nil => rfl
  | cons i is ih => rw [execAll_cons_of_next (exec_of_fault hf i), ih]

theorem writeByte_overflow_mono {p : OutPort} {b : Byte} {o : Stream} (h : (writeByte p b o).overflow = false) :
    o.overflow = false := by
  simp only [writeByte] at h
  split at h
  · cases h
  · exact h

theorem emitByte_overflow_mono {p : OutPort} {epb : Bool} {b : Byte} {o : Stream}
    (h : (emitByte p epb b o).overflow = false) : o.overflow = false := by
  have hbefore := writeByte_overflow_mono h
  split at hbefore
  · exact writeByte_overflow_mono hbefore
  · exact hbefore

/-- Once a byte has overflowed, no further bit takes that back. -/
theorem appendBits_overflow_mono {p : OutPort} {epb : Bool} {bits : Bits} {o : Stream}
    (h : (appendBits p epb bits o).overflow = false) : o.overflow = false := by
  induction bits generalizing o with
  | nil => exact h
  | cons bit bits ih =>
    rw [appendBits, List.foldl_cons] at h
    have hbit : (appendBit p epb o bit).overflow = false := ih h
    simp only [appendBit] at hbit
    split at hbit
    · have hemit := emitByte_overflow_mono hbit
      exact hemit
    · exact hbit

/-- A command that runs on a committed copy goes on from that copy. -/
theorem emission_commit (emit : State → Stream → Stream) (s : State) {o : Stream} (ho : o.overflow = false) :
    emission emit (s.commit o)
      = if (emit (s.commit o) o).overflow then none else some (s.commit (emit (s.commit o) o)) := by
  have hstream : (s.commit o).stream = o := by rw [State.stream, ← ho]; rfl
  rw [emission, hstream]
  rfl

/-! ## Units from a byte boundary -/

/-- A unit that starts on a byte boundary ends on one, whatever its payload (R153). -/
theorem pending_of_unit {s : State} {o : Stream} (h : o.acc.pending = []) (payload : Bits) :
    (emitTrailing s (s.append payload (emitStartCode s o))).acc.pending = [] := by
  obtain ⟨hunit, hempty⟩ := unit_eq (s := s) h payload
  rw [hunit]
  exact hempty

theorem pending_emitAudUnit {s : State} {o : Stream} (h : o.acc.pending = []) :
    (emitAudUnit s o).acc.pending = [] := by
  rw [emitAudUnit, emitAud]
  exact pending_of_unit h _

theorem pending_emitSpsUnit {s : State} {o : Stream} (h : o.acc.pending = []) :
    (emitTrailing s (emitSps s (emitStartCode s o))).acc.pending = [] := by
  rw [emitSps]
  exact pending_of_unit h _

theorem pending_emitParameterSets {s : State} {o : Stream} (h : o.acc.pending = []) :
    (emitParameterSets s o).acc.pending = [] := by
  rw [emitParameterSets, emitPps]
  exact pending_of_unit (pending_emitSpsUnit h) _

/-! ## Runs of commands without a fault -/

/-- The copy `o` of `s` has not overflowed, and the commands `is` lead from its commit to `t`. -/
def State.Reaches (s t : State) (is : List Instr) (o : Stream) : Prop :=
  o.overflow = false ∧ execAll is (s.commit o) = some t

section
variable {s t : State} {o : Stream} {is : List Instr} (hf : s.fault = false) (ht : t.fault = false)
include hf ht

/-- A run without a fault passes the checks of its first command, and goes on from what that command emits. -/
theorem reaches_cons_iff {i : Instr} {c : Option FaultCode} {al : Bool} {emit : State → Stream → Stream}
    (hexec : exec i (s.commit o) = .next (execute i c al (emission emit) (s.commit o)))
    (hemit : emit (s.commit o) o = emit s o) (hmono : (emit s o).overflow = false → o.overflow = false) :
    s.Reaches t (i :: is) o ↔ c = none ∧ (al = true → o.acc.pending = []) ∧ s.Reaches t is (emit s o) := by
  rw [State.Reaches, State.Reaches, execAll_cons_of_next hexec]
  constructor
  · rintro ⟨ho, hrun⟩
    rcases execute_cases i c al (emission emit) (s.commit o) with ⟨hfault, -⟩ | ⟨-, k, h⟩ | ⟨-, hc, hal, u, hu, h⟩
    · exact absurd (hf.symm.trans hfault) (by decide)
    · rw [h, execAll_of_fault rfl] at hrun
      cases hrun; cases ht
    · rw [h] at hrun
      rw [emission_commit emit s ho, hemit, Option.ite_none_left_eq_some] at hu
      obtain ⟨hno, hcommit⟩ := hu
      cases hcommit
      exact ⟨hc, hal, eq_false_of_ne_true hno, hrun⟩
  · rintro ⟨rfl, hal, ho', hrun⟩
    have hcommit : emission emit (s.commit o) = some (s.commit (emit s o)) := by
      rw [emission_commit emit s (hmono ho'), hemit, ho']; rfl
    rw [execute_of_some (s := s.commit o) hf hal hcommit]
    exact ⟨hmono ho', hrun⟩

theorem reaches_putStartCode_iff :
    s.Reaches t (.putStartCode :: is) o ↔ o.acc.pending = [] ∧ s.Reaches t is (emitStartCode s o) := by
  simpa using reaches_cons_iff (is := is) (o := o) (i := .putStartCode) hf ht rfl rfl appendBits_overflow_mono

theorem reaches_putTrailing_iff : s.Reaches t (.putTrailing :: is) o ↔ s.Reaches t is (emitTrailing s o) := by
  simpa using reaches_cons_iff (is := is) (o := o) (i := .putTrailing) hf ht rfl rfl appendBits_overflow_mono

theorem reaches_putAud_iff : s.Reaches t (.putAud :: is) o ↔ s.Reaches t is (emitAud s o) := by
  simpa using reaches_cons_iff (is := is) (o := o) (i := .putAud) hf ht rfl rfl appendBits_overflow_mono

theorem reaches_putSps_iff :
    s.Reaches t (.putSps :: is) o ↔ checkMb s.data = none ∧ s.Reaches t is (emitSps s o) := by
  simpa using reaches_cons_iff (is := is) (o := o) (i := .putSps) hf ht rfl rfl appendBits_overflow_mono

theorem reaches_putPps_iff : s.Reaches t (.putPps :: is) o ↔ s.Reaches t is (emitPps s o) := by
  simpa using reaches_cons_iff (is := is) (o := o) (i := .putPps) hf ht rfl rfl appendBits_overflow_mono

theorem reaches_putSliceHeader_iff :
    s.Reaches t (.putSliceHeader :: is) o ↔ s.Reaches t is (emitSliceHeader s o) := by
  simpa using reaches_cons_iff (is := is) (o := o) (i := .putSliceHeader) hf ht rfl rfl appendBits_overflow_mono

/-- R180 steps 7 to 10 as runs of primitive commands from a byte boundary. -/
theorem reaches_audUnit_iff (h : o.acc.pending = []) :
    s.Reaches t (.putStartCode :: .putAud :: .putTrailing :: is) o ↔ s.Reaches t is (emitAudUnit s o) := by
  rw [reaches_putStartCode_iff hf ht, reaches_putAud_iff hf ht, reaches_putTrailing_iff hf ht, and_iff_right h,
    emitAudUnit]

theorem reaches_parameterSets_iff (h : o.acc.pending = []) :
    s.Reaches t (.putStartCode :: .putSps :: .putTrailing :: .putStartCode :: .putPps :: .putTrailing :: is) o
      ↔ checkMb s.data = none ∧ s.Reaches t is (emitParameterSets s o) := by
  rw [reaches_putStartCode_iff hf ht, reaches_putSps_iff hf ht, reaches_putTrailing_iff hf ht,
    reaches_putStartCode_iff hf ht, reaches_putPps_iff hf ht, reaches_putTrailing_iff hf ht, and_iff_right h,
    and_iff_right (pending_emitSpsUnit h), emitParameterSets]

theorem reaches_sliceUnit_iff (h : o.acc.pending = []) :
    s.Reaches t (.putStartCode :: .putSliceHeader :: is) o ↔ s.Reaches t is (emitSliceUnit s o) := by
  rw [reaches_putStartCode_iff hf ht, reaches_putSliceHeader_iff hf ht, and_iff_right h, emitSliceUnit]

/-- PUT_FRAME_HEADERS from the state itself, which is the commit of its own copy. -/
theorem exec_putFrameHeaders_iff (f : Bool) :
    exec (.putFrameHeaders f) s = .next t
      ↔ checkFrame f s.data = none ∧ s.acc.pending = [] ∧ s.Reaches t [] (emitFrameHeaders f s s.stream) := by
  have hone : exec (.putFrameHeaders f) s = .next t ↔ s.Reaches t [.putFrameHeaders f] s.stream := by
    obtain ⟨u, hu⟩ := exists_exec_eq_next (.putFrameHeaders f) s
    have hrun : execAll [.putFrameHeaders f] (s.commit s.stream) = some u := execAll_cons_of_next hu []
    simp [State.Reaches, hrun, hu]
  rw [hone]
  simpa using reaches_cons_iff (is := []) (o := s.stream) (i := .putFrameHeaders f) hf ht rfl rfl fun _ => rfl

end

/-- Settles O36: command by command, a run without a fault goes on from what the command emits, and PUT_FRAME_HEADERS
emits just that composition; every start code but the first follows a unit, so it finds a byte boundary. -/
theorem frameHeadersEqualThePrimitives : Obligations.FrameHeadersEqualThePrimitives := by
  unfold Obligations.FrameHeadersEqualThePrimitives
  intro f s t _ hf ht
  have hstart (is : List Instr) : execAll is s = some t ↔ s.Reaches t is s.stream := (and_iff_right rfl).symm
  rw [exec_putFrameHeaders_iff hf ht, hstart]
  by_cases hempty : s.acc.pending = []
  · have haud := pending_emitAudUnit (s := s) (o := s.stream) hempty
    rw [and_iff_right hempty]
    cases f with
    | false =>
      have hcheck : checkFrame false s.data = none := rfl
      calc s.Reaches t [.putStartCode, .putAud, .putTrailing, .putStartCode, .putSliceHeader] s.stream
        _ ↔ s.Reaches t [] (emitSliceUnit s (emitAudUnit s s.stream)) := by
          rw [reaches_audUnit_iff hf ht hempty, reaches_sliceUnit_iff hf ht haud]
        _ ↔ _ := by rw [and_iff_right hcheck]; rfl
    | true =>
      calc s.Reaches t [.putStartCode, .putAud, .putTrailing, .putStartCode, .putSps, .putTrailing, .putStartCode,
            .putPps, .putTrailing, .putStartCode, .putSliceHeader] s.stream
        _ ↔ checkMb s.data = none
            ∧ s.Reaches t [] (emitSliceUnit s (emitParameterSets s (emitAudUnit s s.stream))) := by
          rw [reaches_audUnit_iff hf ht hempty, reaches_parameterSets_iff hf ht haud,
            reaches_sliceUnit_iff hf ht (pending_emitParameterSets haud)]
        _ ↔ _ := Iff.rfl
  · have hoff (is : List Instr) : ¬s.Reaches t (.putStartCode :: is) s.stream := fun h =>
      hempty ((reaches_putStartCode_iff hf ht).1 h).1
    exact iff_of_false (hoff _) fun h => hempty h.2.1

end Sys2Proof.Machine

/-! The statements of the geometry's family (42_geometry.md): the ranges of R197, the registers that GEO_COMPUTE latches
and the relations among them, GEO_CLEAR, and which accesses change the geometry. -/

namespace Sys2Proof.Machine

/-! ## The formulas of R192 and R193 under the stated parameters -/

theorem halfDim_eq_ite (r : HalfDimRound) (a : Nat) : halfDim r a = if r = .floor then a / 2 else (a + 1) / 2 := by
  cases r <;> rfl

theorem roundUp_eq (a m : Nat) : roundUp a m = m * ((a + m - 1) / m) := Nat.mul_comm _ _

theorem roundUp_mono {a b : Nat} (h : a ≤ b) (m : Nat) : roundUp a m ≤ roundUp b m := by
  rw [roundUp_eq, roundUp_eq]
  exact Nat.mul_le_mul_left m (Nat.div_le_div_right (by omega))

theorem halfDim_le (r : HalfDimRound) (a : Nat) : halfDim r a ≤ a := by
  rw [halfDim_eq_ite]
  split <;> omega

theorem tile2Dim_le_tileDim (c : Config) (a : Nat) : tile2Dim c a ≤ tileDim c a := roundUp_mono (halfDim_le _ a) _

section
variable {c : Config} (hc : c.asStated)
include hc

theorem mbDim_stated (a : Nat) : mbDim c a = (a + 15) / 16 := by
  simp only [mbDim, ceilDiv, hc, FixedParams.stated, Nat.add_succ_sub_one]

theorem tileDim_stated (a : Nat) : tileDim c a = 32 * ((a + 32 - 1) / 32) := by
  simp only [tileDim, roundUp_eq, hc, FixedParams.stated]

theorem tile2Dim_stated (a : Nat) : tile2Dim c a = 32 * ((halfDim c.halfDimRound a + 32 - 1) / 32) := by
  simp only [tile2Dim, roundUp_eq, hc, FixedParams.stated]

theorem planeSize_stated (w h : Nat) : planeSize c w h = (16 * mbDim c w) * (16 * mbDim c h) := by
  simp only [planeSize, hc, FixedParams.stated, Nat.mul_comm 16]

theorem inputSize_stated (w h : Nat) : inputSize c w h = planeSize c w h * 3 / 2 := by
  simp only [inputSize, hc, FixedParams.stated]

theorem geoInDomain_stated_iff (w h : Nat) :
    geoInDomain c w h = true ↔ 16 ≤ w ∧ w ≤ 1920 ∧ 16 ≤ h ∧ h ≤ 1080 := by
  simp only [geoInDomain_iff, hc, FixedParams.stated]

/-! ## Ranges (R197) -/

theorem mbDim_bounds {a k : Nat} (hlow : 16 ≤ a) (hhigh : a ≤ 16 * k) : 1 ≤ mbDim c a ∧ mbDim c a ≤ k := by
  rw [mbDim_stated hc]
  omega

theorem tileDim_bounds {a k : Nat} (hlow : 16 ≤ a) (hhigh : a ≤ 32 * k) :
    32 ≤ tileDim c a ∧ tileDim c a ≤ 32 * k := by
  rw [tileDim_stated hc]
  omega

/-- Both roundings of the half keep the bounds, since 64 * k is even. -/
theorem tile2Dim_bounds {a k : Nat} (hlow : 16 ≤ a) (hhigh : a ≤ 64 * k) :
    32 ≤ tile2Dim c a ∧ tile2Dim c a ≤ 32 * k := by
  have hhalf : 8 ≤ halfDim c.halfDimRound a ∧ halfDim c.halfDimRound a ≤ 32 * k := by
    rw [halfDim_eq_ite]
    split <;> omega
  rw [tile2Dim_stated hc]
  omega

end

theorem mul_bounds {a b la ua lb ub : Nat} (ha : la ≤ a ∧ a ≤ ua) (hb : lb ≤ b ∧ b ≤ ub) :
    la * lb ≤ a * b ∧ a * b ≤ ua * ub :=
  ⟨Nat.mul_le_mul ha.1 hb.1, Nat.mul_le_mul ha.2 hb.2⟩

/-- Settles O42: each dimension is bounded by its formula, and each size by the bounds of its factors. -/
theorem geometryRanges : Obligations.GeometryRanges := by
  unfold Obligations.GeometryRanges
  intro c w h hc hw hw' hh hh'
  have hmbW := mbDim_bounds (k := 120) hc hw hw'
  have hmbH := mbDim_bounds (k := 68) hc hh (by omega)
  have htileW := tileDim_bounds (k := 60) hc hw hw'
  have htileH := tileDim_bounds (k := 34) hc hh (by omega)
  have htile2W := tile2Dim_bounds (k := 30) hc hw hw'
  have htile2H := tile2Dim_bounds (k := 17) hc hh (by omega)
  have hplane : 256 ≤ planeSize c w h ∧ planeSize c w h ≤ 2088960 := by
    have hmb := mul_bounds hmbW hmbH
    rw [planeSize_stated hc, Nat.mul_mul_mul_comm]
    omega
  have hinput : 384 ≤ inputSize c w h ∧ inputSize c w h ≤ 3133440 := by
    rw [inputSize_stated hc]
    omega
  have hrecon : 2048 ≤ reconSize c w h ∧ reconSize c w h ≤ 3133440 := by
    have hluma := mul_bounds htileW htileH
    have hchroma := mul_bounds htileW htile2H
    rw [reconSize]
    omega
  exact ⟨hmbW, hmbH, htileW, htileH, htile2W, htile2H, hplane, hinput, hrecon, mul_bounds htile2W htile2H⟩

/-! ## GEO_COMPUTE (R194) -/

/-- The registers hold the geometry of a size as numbers, none of them cut to its field. -/
structure GeoRegs.HoldGeometry (g : GeoRegs) (c : Config) (w h : Nat) : Prop where
  src : g.src.toNat = h * 65536 + w
  mb : g.mb.toNat = mbDim c h * 65536 + mbDim c w
  tile : g.tile.toNat = tileDim c h * 65536 + tileDim c w
  tile2 : g.tile2.toNat = tile2Dim c h * 65536 + tile2Dim c w
  planeSize : g.planeSize.toNat = Machine.planeSize c w h
  inputSize : g.inputSize.toNat = Machine.inputSize c w h
  reconSize : g.reconSize.toNat = Machine.reconSize c w h
  smallLumaSize : g.smallLumaSize.toNat = Machine.smallLumaSize c w h
  chromaOffset : g.chromaOffset.toNat = Machine.planeSize c w h
  reconChromaOffset : g.reconChromaOffset.toNat = reconChromaOff c w h

/-- In the domain every register holds its quantity, by the ranges of R197. -/
theorem holdGeometry_geoRegsOf {c : Config} (hc : c.asStated) {w h : Nat}
    (hdomain : geoInDomain c w h = true) : (geoRegsOf c w h).HoldGeometry c w h := by
  obtain ⟨hw, hw', hh, hh'⟩ := (geoInDomain_stated_iff hc w h).1 hdomain
  obtain ⟨⟨-, hmbW⟩, ⟨-, hmbH⟩, ⟨-, htileW⟩, ⟨-, htileH⟩, ⟨-, htile2W⟩, ⟨-, htile2H⟩, ⟨-, hplane⟩, ⟨-, hinput⟩,
    ⟨-, hrecon⟩, -, hsmall⟩ := geometryRanges c w h hc hw hw' hh hh'
  have hchroma : reconChromaOff c w h ≤ reconSize c w h := Nat.le_add_right _ _
  have word {n : Nat} (hn : n ≤ 3133440) : (BitVec.ofNat 32 n).toNat = n := by
    rw [BitVec.toNat_ofNat, Nat.mod_eq_of_lt (by omega)]
  exact {
    src := packHalves_toNat (by omega) (by omega)
    mb := packHalves_toNat (by omega) (by omega)
    tile := packHalves_toNat (by omega) (by omega)
    tile2 := packHalves_toNat (by omega) (by omega)
    planeSize := word (by omega)
    inputSize := word hinput
    reconSize := word hrecon
    smallLumaSize := word (by omega)
    chromaOffset := word (by omega)
    reconChromaOffset := word (by omega) }

theorem exec_geoCompute_of_not_inDomain {s : State} (hf : s.fault = false)
    (hd : ¬geoInDomain s.cfg (dataLow s.data) (dataHigh s.data) = true) :
    exec .geoCompute s = .next (raiseFault .geoRange (encode .geoCompute) s) := by
  have hcheck : checkGeo s.cfg s.data = some .geoRange := if_neg hd
  rw [exec, execGeoCompute, hcheck, execute_of_operand hf]

/-- Settles O40: in the domain the registers hold the model's quantities, which are R192's and R193's formulas. -/
theorem geoComputeLatchesTheGeometry : Obligations.GeoComputeLatchesTheGeometry := by
  unfold Obligations.GeoComputeLatchesTheGeometry
  intro s hc hf
  rw [← dataLow_eq, ← dataHigh_eq]
  intro w h up half plane
  have hmb (a : Nat) : mbDim s.cfg a = (a + 15) / 16 := mbDim_stated hc a
  have htile (a : Nat) : tileDim s.cfg a = up a 32 := tileDim_stated hc a
  have htile2 (a : Nat) : tile2Dim s.cfg a = up (half a) 32 := by
    rw [tile2Dim_stated hc, halfDim_eq_ite]
  have hplane : planeSize s.cfg w h = plane := by
    rw [planeSize_stated hc, hmb, hmb]
    rfl
  have hiff := geoInDomain_stated_iff hc w h
  constructor
  · intro hw hw' hh hh'
    have hdomain : geoInDomain s.cfg w h = true := hiff.2 ⟨hw, hw', hh, hh'⟩
    have hgeo : (latchGeometry s).geo.HoldGeometry s.cfg w h := holdGeometry_geoRegsOf hc hdomain
    refine ⟨_, exec_geoCompute_next hf hdomain, rfl, hgeo.src, ?_, ?_, ?_, ?_, ?_, ?_, ?_, ?_, ?_⟩
    · rw [hgeo.mb, hmb, hmb]
    · rw [hgeo.tile, htile, htile]
    · rw [hgeo.tile2, htile2, htile2]
    · rw [hgeo.planeSize, hplane]
    · rw [hgeo.inputSize, inputSize_stated hc, hplane]
    · rw [hgeo.reconSize, reconSize, htile, htile, htile2]
    · rw [hgeo.smallLumaSize, smallLumaSize, htile2, htile2]
    · rw [hgeo.chromaOffset, hplane]
    · rw [hgeo.reconChromaOffset, reconChromaOff, htile, htile]
  · intro hout
    exact exec_geoCompute_of_not_inDomain hf (hiff.not.2 (by omega))

/-! ## Relations among the registers (R196) -/

section
variable {c : Config} (hc : c.asStated)
include hc

/-- The dimensions of one side: each is its formula, and rounds the side up to whole macroblocks and whole tiles. -/
theorem dimension_relations (a : Nat) :
    tileDim c a % 32 = 0 ∧ tile2Dim c a % 32 = 0 ∧ mbDim c a = (a + 15) / 16
    ∧ a ≤ 16 * mbDim c a ∧ 16 * mbDim c a ≤ tileDim c a ∧ 16 * mbDim c a - a ≤ 15 ∧ tileDim c a - a ≤ 31 := by
  rw [mbDim_stated hc, tileDim_stated hc, tile2Dim_stated hc]
  omega

/-- The luma plane fits inside its tiled plane, side by side. -/
theorem planeSize_le (w h : Nat) : planeSize c w h ≤ tileDim c w * tileDim c h := by
  obtain ⟨-, -, -, -, hw, -⟩ := dimension_relations hc w
  obtain ⟨-, -, -, -, hh, -⟩ := dimension_relations hc h
  rw [planeSize_stated hc]
  exact Nat.mul_le_mul hw hh

theorem inputSize_eq_add_half (w h : Nat) : inputSize c w h = planeSize c w h + planeSize c w h / 2 := by
  rw [inputSize_stated hc]
  omega

end

theorem halves_of_eq {n low high : Nat} (hn : n = high * 65536 + low) (hlow : low < 65536) :
    n % 65536 = low ∧ n / 65536 = high := by
  omega

/-- Settles O41: without a fault the registers hold the model's quantities, so each relation is one of the formulas; an
invalid geometry is zero by the invariant. -/
theorem geometryRelations : Obligations.GeometryRelations := by
  unfold Obligations.GeometryRelations
  refine ⟨fun s t hc hf hexec ht => ?_, fun s ⟨_, _, hgeo, _⟩ hv => ?_⟩
  · rw [← dataLow_eq, ← dataHigh_eq]
    intro w h mbW mbH tileW tileH tileW2 tileH2
    by_cases hdomain : geoInDomain s.cfg w h = true
    · cases (exec_geoCompute_next hf hdomain).symm.trans hexec
      have hgeo : (latchGeometry s).geo.HoldGeometry s.cfg w h := holdGeometry_geoRegsOf hc hdomain
      obtain ⟨hw, hw', hh, hh'⟩ := (geoInDomain_stated_iff hc w h).1 hdomain
      obtain ⟨⟨-, hmbW'⟩, -, ⟨-, htileW'⟩, -, ⟨-, htile2W'⟩, -⟩ := geometryRanges s.cfg w h hc hw hw' hh hh'
      obtain ⟨hmbW, hmbH⟩ : mbW = mbDim s.cfg w ∧ mbH = mbDim s.cfg h := halves_of_eq hgeo.mb (by omega)
      obtain ⟨htileW, htileH⟩ : tileW = tileDim s.cfg w ∧ tileH = tileDim s.cfg h := halves_of_eq hgeo.tile (by omega)
      obtain ⟨htileW2, htileH2⟩ : tileW2 = tile2Dim s.cfg w ∧ tileH2 = tile2Dim s.cfg h :=
        halves_of_eq hgeo.tile2 (by omega)
      obtain ⟨haligned, haligned2, hmb, hle, hmbTile, hmbPad, htilePad⟩ := dimension_relations hc w
      obtain ⟨haligned', haligned2', hmb', hle', hmbTile', hmbPad', htilePad'⟩ := dimension_relations hc h
      rw [hmbW, hmbH, htileW, htileH, htileW2, htileH2, hgeo.planeSize, hgeo.inputSize, hgeo.chromaOffset,
        hgeo.reconSize, hgeo.reconChromaOffset]
      exact ⟨haligned, haligned', haligned2, haligned2', hmb, hmb', hle, hmbTile, hmbPad, htilePad, hle', hmbTile',
        hmbPad', htilePad', planeSize_le hc w h, inputSize_eq_add_half hc w h, rfl, tile2Dim_le_tileDim _ w,
        tile2Dim_le_tileDim _ h⟩
    · cases (exec_geoCompute_of_not_inDomain hf hdomain).symm.trans hexec
      cases ht
  · rw [hgeo.1 hv]
    exact ⟨rfl, rfl, rfl, rfl, rfl, rfl, rfl, rfl, rfl, rfl⟩

/-! ## GEO_CLEAR (R195) -/

theorem exec_geoClear_next {s : State} (hf : s.fault = false) : exec .geoClear s = .next (clearGeometry s) := by
  rw [exec, execGeoClear, execute_of_some (t := clearGeometry s) hf (al := false) nofun rfl]

/-- Where the geometry is not valid the invariant has it zero already. -/
theorem clearGeometry_eq_self {s : State} (hgeo : s.geoAgrees) (hv : s.geoValid = false) : clearGeometry s = s := by
  rw [clearGeometry, ← hgeo.1 hv, ← hv]

/-- Settles O43: the command is `clearGeometry`, which leaves a geometry that is not valid as it is. -/
theorem geoClearZeroesTheGeometry : Obligations.GeoClearZeroesTheGeometry := by
  unfold Obligations.GeoClearZeroesTheGeometry
  intro s hc hf
  have hexec := exec_geoClear_next hf
  refine ⟨⟨_, hexec, rfl, rfl, rfl, rfl, rfl, rfl, rfl, rfl, rfl, rfl, rfl, readReg_outputBufSize hc,
    readReg_mbinfoBufSize hc⟩, fun ⟨_, _, hgeo, _⟩ hv => ?_⟩
  rw [hexec, clearGeometry_eq_self hgeo hv]

/-! ## Which accesses change the geometry (R190) -/

/-- The two states have the same GEO_* registers and GEO_VALID. -/
def SameGeometry (s t : State) : Prop := t.geo = s.geo ∧ t.geoValid = s.geoValid

theorem sameGeometry_writeReg (offset : Nat) (v : Word) (s : State) : SameGeometry s (writeReg offset v s) := by
  unfold writeReg
  split
  case h_5 => split <;> exact ⟨rfl, rfl⟩
  all_goals exact ⟨rfl, rfl⟩

theorem sameGeometry_hostMemRead (addr : Word) (s : State) : SameGeometry s (hostMemRead addr s) := by
  rw [hostMemRead]
  split <;> exact ⟨rfl, rfl⟩

theorem sameGeometry_executeIllegal (w : Word) (s : State) : SameGeometry s (executeIllegal w s) := by
  rw [executeIllegal]
  split <;> exact ⟨rfl, rfl⟩

/-- A command word that changes the geometry is the word of one of the two commands that write it. -/
theorem sameGeometry_or_geoWord {w : Word} {s t : State} (h : runWord w s = .next t) :
    SameGeometry s t ∨ w = 0x00000010 ∨ w = 0x00000011 := by
  cases hd : decode w with
  | ok i =>
    obtain ⟨-, hw⟩ := encodeOfDecode w i hd
    by_cases hcompute : i = .geoCompute
    · subst hcompute
      exact .inr (.inl hw.symm)
    · by_cases hclear : i = .geoClear
      · subst hclear
        exact .inr (.inr hw.symm)
      · exact .inl ((commandKeeps_exec ((runWord_of_ok hd s).symm.trans h)).geometry hcompute hclear)
  | error e =>
    cases (runWord_of_error hd s).symm.trans h
    exact .inl (sameGeometry_executeIllegal w s)

/-- Settles O45: of the ways a step can go (`step_cases`) only a command word and the reset event can change the
geometry, and of the words only two. -/
theorem geometryHasTwoWriters : Obligations.GeometryHasTwoWriters := by
  unfold Obligations.GeometryHasTwoWriters
  intro s t hstep hchange
  have hdiffers : ¬SameGeometry s t := not_and_or.2 hchange
  rcases step_cases hstep with ⟨-, rfl⟩ | ⟨_, rest, hi, hact⟩
  · exact absurd ⟨rfl, rfl⟩ hdiffers
  · refine ⟨rest, ?_⟩
    rcases hact with ⟨offset, v, -, -, rfl⟩ | ⟨w, rfl, hrun⟩ | ⟨offset, -, rfl⟩ | ⟨addr, -, rfl⟩
      | ⟨base, size, -, rfl⟩ | ⟨slice, wait, -, -, rfl⟩ | ⟨rfl, -⟩
    · exact absurd (sameGeometry_writeReg offset v { s with inputs := rest }) hdiffers
    · rcases sameGeometry_or_geoWord hrun with hsame | rfl | rfl
      · exact absurd hsame hdiffers
      · exact .inl hi
      · exact .inr (.inl hi)
    · exact absurd ⟨rfl, rfl⟩ hdiffers
    · exact absurd (sameGeometry_hostMemRead addr { s with inputs := rest }) hdiffers
    · exact absurd ⟨rfl, rfl⟩ hdiffers
    · exact absurd ⟨rfl, rfl⟩ hdiffers
    · exact .inr (.inr hi)

end Sys2Proof.Machine

/-! The statements of the control family (43_control.md): which steps end a fault, NOP, and VLE_RESET. -/

namespace Sys2Proof.Machine

/-! ## Which steps end a fault (R215, R231) -/

/-- The two states have the same FAULT, FAULT_CODE and FAULT_CMD. -/
def SameFault (s t : State) : Prop := t.fault = s.fault ∧ t.faultCode = s.faultCode ∧ t.faultCmd = s.faultCmd

/-- A register write that changes the fault fields is one to STATUS with bit 0 = 1 (R230). -/
theorem sameFault_writeReg_or_clears (offset : Nat) (v : Word) (s : State) :
    SameFault s (writeReg offset v s)
    ∨ offset = 0x18 ∧ v.getLsbD 0 = true ∧ writeReg offset v s = clearFault s := by
  unfold writeReg
  split
  case h_5 =>
    split
    case isTrue hbit => exact .inr ⟨rfl, hbit, rfl⟩
    case isFalse => exact .inl ⟨rfl, rfl, rfl⟩
  all_goals exact .inl ⟨rfl, rfl, rfl⟩

theorem sameFault_hostMemRead (addr : Word) (s : State) : SameFault s (hostMemRead addr s) := by
  rw [hostMemRead]
  split <;> exact ⟨rfl, rfl, rfl⟩

/-- A fault keeps every command word, illegal ones too, from doing anything (R229). -/
theorem runWord_of_fault {s : State} (hf : s.fault = true) (w : Word) : runWord w s = .next s := by
  cases hd : decode w with
  | ok i => rw [runWord_of_ok hd, exec_of_fault hf]
  | error e => rw [runWord_of_error hd, executeIllegal, if_pos hf]

/-- The next access ends a fault: a STATUS write with bit 0 = 1, or the reset event. -/
def State.EndsFaultNext (s : State) : Prop :=
  ∃ rest, (∃ v : Word, s.inputs = .regWrite 0x18 4 v :: rest ∧ v.getLsbD 0 = true) ∨ s.inputs = .openEngine :: rest

/-- A step from the fault state keeps all three fault fields, or its access is one of the two that clear them. -/
theorem sameFault_or_endsFault {s t : State} (hf : s.fault = true) (hstep : step s = .next t) :
    SameFault s t ∨ t.fault = false ∧ s.EndsFaultNext := by
  rcases step_cases hstep with ⟨-, rfl⟩ | ⟨_, rest, hi, hact⟩
  · exact .inl ⟨rfl, rfl, rfl⟩
  · rcases hact with ⟨offset, v, -, rfl, rfl⟩ | ⟨w, -, hrun⟩ | ⟨offset, -, rfl⟩ | ⟨addr, -, rfl⟩
      | ⟨base, size, -, rfl⟩ | ⟨slice, wait, -, -, rfl⟩ | ⟨rfl, rfl⟩
    · rcases sameFault_writeReg_or_clears offset v { s with inputs := rest } with hsame | ⟨rfl, hbit, hclear⟩
      · exact .inl hsame
      · exact .inr ⟨congrArg State.fault hclear, rest, .inl ⟨v, hi, hbit⟩⟩
    · cases (runWord_of_fault (s := { s with inputs := rest }) hf w).symm.trans hrun
      exact .inl ⟨rfl, rfl, rfl⟩
    · exact .inl ⟨rfl, rfl, rfl⟩
    · exact .inl (sameFault_hostMemRead addr { s with inputs := rest })
    · exact .inl ⟨rfl, rfl, rfl⟩
    · exact .inl ⟨rfl, rfl, rfl⟩
    · exact .inr ⟨rfl, rest, .inr hi⟩

/-- Settles O17: a step that keeps the fault fields leaves FAULT = 1, and one that does not takes an access that clears
them. -/
theorem faultEndsOnlyByClear : Obligations.FaultEndsOnlyByClear := by
  unfold Obligations.FaultEndsOnlyByClear
  intro s t hf hstep
  rcases sameFault_or_endsFault hf hstep with ⟨hfault, hcode, hcmd⟩ | ⟨hclear, hends⟩
  · exact ⟨fun ht => absurd (ht.symm.trans (hfault.trans hf)) nofun, fun _ => ⟨hcode, hcmd⟩⟩
  · exact ⟨fun _ => hends, fun ht => absurd (ht.symm.trans hclear) nofun⟩

/-! ## NOP (R210) -/

theorem exec_nop (s : State) : exec .nop s = .next s := by
  cases hf : s.fault with
  | true => exact exec_of_fault hf .nop
  | false => rw [exec, execNop, execute_of_some (t := s) hf (al := false) nofun rfl]

/-- The row with opcode 0 compares every bit. -/
theorem opcode_zero_row :
    ∀ r ∈ opcodeRows, opcField r.pattern = 0 → r.mask = BitVec.allOnes 32 ∧ r.pattern = 0 := by decide

/-- The only word with opcode 0 that has a command is 0. -/
theorem eq_zero_of_decode_eq_ok {w : Word} {i : Instr} (hopc : opcField w = 0) (h : decode w = .ok i) : w = 0 := by
  obtain ⟨r, hr, hmatch, -⟩ := decode_eq_ok_iff.1 h
  obtain ⟨hmask, hpattern⟩ := opcode_zero_row r hr ((opcField_of_match hr hmatch).symm.trans hopc)
  rwa [hmask, hpattern, BitVec.and_allOnes] at hmatch

/-- Settles O38: the CMD write of 0 runs NOP, and any other word with opcode 0 has no command. -/
theorem nopChangesNothing : Obligations.NopChangesNothing := by
  unfold Obligations.NopChangesNothing
  have hnop : decode 0x00000000 = .ok .nop := decode_of_encode_eq rfl rfl
  refine ⟨rfl, hnop, exec_nop, fun s rest hcfg hi => ?_, fun s w hf hopc hw => ?_⟩
  · rw [step_cmd (i := .nop) hcfg hnop hi, exec_nop]
  · rw [← opcField_eq_mod] at hopc
    cases hd : decode w with
    | ok i => exact absurd (eq_zero_of_decode_eq_ok hopc hd) hw
    | error e => exact runWord_of_error_of_no_fault hd hf

/-! ## VLE_RESET (R211) -/

theorem exec_vleReset_next {s : State} (hf : s.fault = false) : exec .vleReset s = .next (resetAccumulator s) := by
  rw [exec, execVleReset, execute_of_some (t := resetAccumulator s) hf (al := false) nofun rfl]

/-- Settles O39: the command is `resetAccumulator`, which replaces the accumulator by the empty one. -/
theorem vleResetEmptiesTheAccumulator : Obligations.VleResetEmptiesTheAccumulator := by
  unfold Obligations.VleResetEmptiesTheAccumulator
  intro s hf
  exact ⟨resetAccumulator s, exec_vleReset_next hf, rfl, rfl, rfl, rfl, vleLen_of_acc_empty rfl, rfl⟩

end Sys2Proof.Machine

/-! The statements of the exceptions' family (60_exceptions.md): what a pending fault keeps the machine from, how it is
cleared, and which fault a command reports. -/

namespace Sys2Proof.Machine

/-! ## What a command's frame is made of (R223, R228) -/

/-- The command runs in the execution frame of R228 with this operand check and this effect. The effect never touches
FAULT, and once the checks pass it completes exactly where the bytes fit. -/
structure FramedAs (i : Instr) (s : State) (check : Option FaultCode) (effect : State → Option State) : Prop where
  exec_eq : exec i s = .next (execute i check (needsBoundary i) effect s)
  operand : checkBitsOf check = operandFault s.cfg s.data i
  keepsFault : ∀ t, effect s = some t → t.fault = s.fault
  completes : s.acc.pending.length ≤ 7 → check = none → (needsBoundary i = true → s.acc.pending = []) →
    ((∃ t, effect s = some t) ↔ s.fits (s.segments i))

/-- An effect that always completes belongs to a command that emits nothing. -/
theorem framedAs_of_total {i : Instr} {s : State} {check : Option FaultCode} {f : State → State}
    (hexec : exec i s = .next (execute i check (needsBoundary i) (fun s => some (f s)) s))
    (hoperand : checkBitsOf check = operandFault s.cfg s.data i) (hfault : (f s).fault = s.fault)
    (hsegments : s.segments i = []) : FramedAs i s check fun s => some (f s) where
  exec_eq := hexec
  operand := hoperand
  keepsFault t ht := by cases ht; exact hfault
  completes _ _ _ := by
    have hfits : s.fits (s.segments i) := by rw [hsegments]; exact .inl rfl
    exact iff_of_true ⟨f s, rfl⟩ hfits

/-- Every command has its frame: those that emit bits by `exec_shape`, the other four with an effect that is total. -/
theorem exists_framedAs (i : Instr) (s : State) : ∃ check effect, FramedAs i s check effect := by
  cases hb : emitsBits i with
  | true =>
    obtain ⟨check, emit, hexec, hoperand, hsegments⟩ := exec_shape i hb s
    refine ⟨check, emission emit, hexec, hoperand, fun t ht => by rw [emission_frame ht],
      fun hp hcheck hboundary => ⟨fun ⟨t, ht⟩ => ?_, fun hfits => ?_⟩⟩
    · by_contra hfits
      exact nomatch ht.symm.trans ((emission_of_segs (hsegments hcheck hboundary) hp).2 hfits)
    · obtain ⟨t, ht, -⟩ := (emission_of_segs (hsegments hcheck hboundary) hp).1 hfits
      exact ⟨t, ht⟩
  | false =>
    cases i with
    | nop => exact ⟨_, _, framedAs_of_total (f := id) rfl rfl rfl rfl⟩
    | vleReset => exact ⟨_, _, framedAs_of_total (f := resetAccumulator) rfl rfl rfl rfl⟩
    | geoCompute => exact ⟨_, _, framedAs_of_total (f := latchGeometry) rfl (checkGeo_eq _ _) rfl rfl⟩
    | geoClear => exact ⟨_, _, framedAs_of_total (f := clearGeometry) rfl rfl rfl rfl⟩
    | _ => cases hb

/-! ## Which fault a command reports (R221 to R227) -/

theorem faultCodeBits_bounds (k : FaultCode) : 1 ≤ (faultCodeBits k).toNat ∧ (faultCodeBits k).toNat ≤ 8 := by
  cases k <;> decide

/-- A command whose operand is in its domain runs with no failing operand check. -/
theorem exists_framedAs_none {i : Instr} {s : State} (hoperand : operandFault s.cfg s.data i = 0) :
    ∃ effect, FramedAs i s none effect := by
  obtain ⟨check, effect, hframe⟩ := exists_framedAs i s
  cases check with
  | none => exact ⟨effect, hframe⟩
  | some k =>
    have hcode : faultCodeBits k = 0 := hframe.operand.trans hoperand
    have hpos := (faultCodeBits_bounds k).1
    rw [hcode] at hpos
    exact absurd hpos (by decide)

section
variable {i : Instr} {s : State} (hf : s.fault = false)
include hf

/-- A command whose operand is outside its domain reports that, whatever the accumulator holds (R223). -/
theorem exec_of_operandFault (hoperand : operandFault s.cfg s.data i ≠ 0) :
    ∃ k, faultCodeBits k = operandFault s.cfg s.data i ∧ exec i s = .next (raiseFault k (encode i) s) := by
  obtain ⟨check, effect, hframe⟩ := exists_framedAs i s
  cases check with
  | none => exact absurd hframe.operand.symm hoperand
  | some k => exact ⟨k, hframe.operand, by rw [hframe.exec_eq, execute_of_operand hf]⟩

/-- Off a byte boundary, a command that needs one reports that (R224). -/
theorem exec_of_unaligned (hoperand : operandFault s.cfg s.data i = 0) (hneeds : needsBoundary i = true)
    (hp : s.acc.pending ≠ []) : exec i s = .next (raiseFault .unalignedStart (encode i) s) := by
  obtain ⟨effect, hframe⟩ := exists_framedAs_none hoperand
  rw [hframe.exec_eq, hneeds, execute_of_unaligned hf hp]

/-- A command whose operand and boundary checks pass completes or reports OVERFLOW, and completes exactly where its
bytes fit (R225). -/
theorem exec_of_checks (hoperand : operandFault s.cfg s.data i = 0)
    (hboundary : needsBoundary i = true → s.acc.pending = []) :
    (∃ t, exec i s = .next t ∧ t.fault = false ∧ (s.acc.pending.length ≤ 7 → s.fits (s.segments i)))
    ∨ exec i s = .next (raiseFault .overflow (encode i) s)
      ∧ (s.acc.pending.length ≤ 7 → ¬s.fits (s.segments i)) := by
  obtain ⟨effect, hframe⟩ := exists_framedAs_none hoperand
  rw [hframe.exec_eq]
  cases heffect : effect s with
  | some t =>
    exact .inl ⟨t, by rw [execute_of_some hf hboundary heffect], (hframe.keepsFault t heffect).trans hf,
      fun hp => (hframe.completes hp rfl hboundary).1 ⟨t, heffect⟩⟩
  | none =>
    refine .inr ⟨by rw [execute_of_none hf hboundary heffect], fun hp hfits => ?_⟩
    obtain ⟨t, ht⟩ := (hframe.completes hp rfl hboundary).2 hfits
    exact nomatch heffect.symm.trans ht

/-- A command completes, or reports its operand fault, or, where it has none, one of the faults that the accumulator
and the buffer decide. -/
theorem exec_completes_or_raises {t : State} (h : exec i s = .next t) :
    t.fault = false ∧ operandFault s.cfg s.data i = 0
    ∨ ∃ k, t = raiseFault k (encode i) s
      ∧ (faultCodeBits k = operandFault s.cfg s.data i
        ∨ operandFault s.cfg s.data i = 0 ∧ (k = .unalignedStart ∨ k = .overflow)) := by
  by_cases hoperand : operandFault s.cfg s.data i = 0
  · by_cases hboundary : needsBoundary i = true → s.acc.pending = []
    · rcases exec_of_checks hf hoperand hboundary with ⟨u, hu, hfault, -⟩ | ⟨hu, -⟩ <;> cases h.symm.trans hu
      · exact .inl ⟨hfault, hoperand⟩
      · exact .inr ⟨_, rfl, .inr ⟨hoperand, .inr rfl⟩⟩
    · obtain ⟨hneeds, hp⟩ := Classical.not_imp.1 hboundary
      cases h.symm.trans (exec_of_unaligned hf hoperand hneeds hp)
      exact .inr ⟨_, rfl, .inr ⟨hoperand, .inl rfl⟩⟩
  · obtain ⟨k, hcode, hu⟩ := exec_of_operandFault hf hoperand
    cases h.symm.trans hu
    exact .inr ⟨k, rfl, .inl hcode⟩

/-- A code from 2 to 6 is reported exactly where it is the operand's. -/
theorem reports_operandFault_iff {t : State} (h : exec i s = .next t) {c : BitVec 4} (hlow : 2 ≤ c.toNat)
    (hhigh : c.toNat ≤ 6) : t.faultCode = c ∧ t.fault = true ↔ operandFault s.cfg s.data i = c := by
  have hzero : (0 : BitVec 4) ≠ c := by rintro rfl; exact absurd hlow (by decide)
  rcases exec_completes_or_raises hf h with ⟨hfault, hoperand⟩ | ⟨k, rfl, hcode | ⟨hoperand, hk⟩⟩
  · rw [hoperand, hfault]
    exact iff_of_false (fun hr => nomatch hr.2) hzero
  · rw [← hcode]
    exact and_iff_left rfl
  · rw [hoperand]
    refine iff_of_false (fun ⟨hreport, _⟩ => ?_) hzero
    have hlarge : 7 ≤ (faultCodeBits k).toNat := by rcases hk with rfl | rfl <;> decide
    have hcode : faultCodeBits k = c := hreport
    rw [hcode] at hlarge
    omega

end

/-- Settles O19: each clause is the command's outcome under the checks it names; the word of a decoded command is its
encoding. -/
theorem faultPriority : Obligations.FaultPriority := by
  unfold Obligations.FaultPriority
  intro w s ⟨⟨hp, _⟩, _⟩
  refine ⟨fun hf => runWord_of_fault hf w, fun hf e hd => runWord_of_error_of_no_fault hd hf, fun hf i hd => ?_⟩
  obtain ⟨-, hword⟩ := encodeOfDecode w i hd
  rw [runWord_of_ok hd, ← hword]
  refine ⟨fun hoperand => ?_, exec_of_unaligned hf, fun hoperand hboundary hfits => ?_,
    fun hoperand hboundary hfits => ?_⟩
  · obtain ⟨k, hcode, hexec⟩ := exec_of_operandFault hf hoperand
    rw [hexec, ← hcode]
    rfl
  · rcases exec_of_checks hf hoperand hboundary with ⟨-, -, -, hfits'⟩ | ⟨hexec, -⟩
    · exact absurd (hfits' hp) hfits
    · exact hexec
  · rcases exec_of_checks hf hoperand hboundary with ⟨t, hexec, hfault, -⟩ | ⟨-, hfits'⟩
    · exact ⟨t, hexec, hfault⟩
    · exact absurd hfits (hfits' hp)

/-- Settles O18: a command that does not complete answers `raiseFault` of the state before it, and so does an illegal
word. -/
theorem faultsArePrecise : Obligations.FaultsArePrecise := by
  unfold Obligations.FaultsArePrecise
  intro w s t hf hrun ht
  obtain ⟨k, rfl⟩ : ∃ k, t = raiseFault k w s := by
    cases hd : decode w with
    | error e =>
      cases (runWord_of_error_of_no_fault hd hf).symm.trans hrun
      exact ⟨.illegalCmd, rfl⟩
    | ok i =>
      obtain ⟨-, hword⟩ := encodeOfDecode w i hd
      rcases exec_completes_or_raises hf ((runWord_of_ok hd s).symm.trans hrun) with ⟨hfault, -⟩ | ⟨k, hraise, -⟩
      · exact nomatch ht.symm.trans hfault
      · exact ⟨k, hword ▸ hraise⟩
  exact ⟨rfl, faultCodeBits_bounds k⟩

/-- Settles O20: in both states the code is reported exactly where `operandFault` of the parameters, DATA and the
command is that code. -/
theorem operandFaultsReadOnlyTheOperand : Obligations.OperandFaultsReadOnlyTheOperand := by
  unfold Obligations.OperandFaultsReadOnlyTheOperand
  intro i s s' t t' hf hf' hcfg hdata h h' c hlow hhigh
  rw [reports_operandFault_iff hf h hlow hhigh, reports_operandFault_iff hf' h' hlow hhigh, hcfg, hdata]

/-! ## Accesses while a fault is pending, and the way out (R229, R230) -/

/-- Settles O16: the CMD write runs its word, which a pending fault ignores; the other accesses do not look at FAULT. -/
theorem faultIsSticky : Obligations.FaultIsSticky := by
  unfold Obligations.FaultIsSticky
  intro s offset v rest hcfg hf
  refine ⟨exec_of_fault hf, fun hi => ?_, fun halign hpos hwindow hi => ?_, fun halign hwindow hi => ?_⟩
  · obtain ⟨-, hcommand, -⟩ := step_regWrite hi
    rw [hcommand (checkAccess_window hcfg rfl (by decide)) rfl]
    exact runWord_of_fault (s := { s with inputs := rest }) hf v
  · exact step_wr hcfg halign hwindow hpos.ne' hi
  · exact step_rd_of_readReg hcfg halign hwindow rfl hi

/-- Settles O15: the STATUS write is `writeReg`, which clears the fault where bit 0 is set; the reset event has R55's
fault fields. -/
theorem faultClear : Obligations.FaultClear := by
  unfold Obligations.FaultClear
  intro s v rest hcfg
  have hwrite (hi : s.inputs = .regWrite 0x18 4 v :: rest) :
      step s = .next (if v.getLsbD 0 then clearFault { s with inputs := rest } else { s with inputs := rest }) :=
    step_wr hcfg rfl (by decide) (by decide) hi
  refine ⟨fun hi hbit => ?_, fun hi hbit => ?_, fun hi => ?_⟩
  · rw [hwrite hi, if_pos hbit]
    rfl
  · rw [hwrite hi, hbit, if_neg Bool.false_ne_true]
  · exact ⟨_, step_openEngine hi, rfl, rfl, rfl⟩

end Sys2Proof.Machine

/-! The statements of the family of reset and hazards (70_reset_and_hazards.md): waiting for the host, the engine's run,
and its hang. -/

namespace Sys2Proof.Machine

/-! ## Waiting (R252) -/

/-- Settles O9: with nothing to take off the queue, a step answers `idle`, which is the state itself. -/
theorem machineWaitsForAccesses : Obligations.MachineWaitsForAccesses := by
  unfold Obligations.MachineWaitsForAccesses
  intro s hi
  simp only [step, nextAccess, hi, idle]

/-! ## The engine's run (R268, R274) -/

/-- A completion is in time where it comes at all and no bound lies before it. -/
theorem completesInTime_iff (timeout wait : Option Nat) :
    completesInTime timeout wait = true ↔ ∃ n, wait = some n ∧ ∀ limit, timeout = some limit → n ≤ limit := by
  cases wait with
  | none => simp [completesInTime]
  | some n => cases timeout <;> simp [completesInTime]

/-- Settles O48: in time, a step is `engineAppend`, which commits the bytes of one segment; that they fit makes the
commit an emission. -/
theorem engineRunAppendsTheSlice : Obligations.EngineRunAppendsTheSlice := by
  unfold Obligations.EngineRunAppendsTheSlice
  rintro s slice n rest ⟨⟨hp, -⟩, -⟩ hi htime hfits
  obtain ⟨hdone, -⟩ := step_engineRun hi
  refine ⟨_, hdone ((completesInTime_iff _ _).2 ⟨n, rfl, htime⟩), ?_⟩
  rw [engineAppend_eq slice (s := { s with inputs := rest }) hp]
  exact commit_emits { s with inputs := rest } _ hfits

/-- Settles O49: a completion in time would be one that comes, at or before the bound. -/
theorem engineHangStops : Obligations.EngineHangStops := by
  unfold Obligations.EngineHangStops
  intro s slice wait rest hi hlate
  obtain ⟨-, hhang⟩ := step_engineRun hi
  refine hhang (Bool.eq_false_iff.2 fun hw => ?_)
  obtain ⟨n, hn, htime⟩ := (completesInTime_iff _ _).1 hw
  rcases hlate with hnone | ⟨m, limit, hm, hlimit, hlt⟩
  · cases hnone.symm.trans hn
  · cases hm.symm.trans hn
    exact absurd (htime limit hlimit) (not_le.2 hlt)

end Sys2Proof.Machine
